-- ==== Sys2Proof/Word.lean ====
section
/-! DEFINITION. The machine's quantities: 12-bit words and addresses, 9-bit memory indices, 3-bit opcodes
(spec/00_scope.md R5–R7). -/

namespace Sys2Proof

/-- A 12-bit memory cell, register value or instruction encoding, always unsigned (R7). -/
abbrev Word := BitVec 12

/-- A 12-bit unsigned address; as a memory index only its low 9 bits count (R41). -/
abbrev Address := BitVec 12

/-- The index of one of the 512 memory words (R5, R41). -/
abbrev Index := BitVec 9

/-- The value of an instruction word's bits 11–9 (R61). -/
abbrev Opcode := BitVec 3

end Sys2Proof
end

