-- ==== Sys2Proof/Syntax.lean ====
section
/-! DEFINITION. The eight instructions (spec/00_scope.md R9), one constructor per row of spec/opcode_table.json. -/

namespace Sys2Proof

/-- An instruction. The addressed five carry "a literal Address", a 12-bit quantity (R9, R63), of which the encoding
keeps the low 9 bits (log entry 2: DESIGN CHOICE, safe); the other three carry nothing. -/
inductive Instr where
  | store (a : Address)
  | load (a : Address)
  | add (a : Address)
  | branch (a : Address)
  | branchIfZero (a : Address)
  | clear
  | decrease
  | halt
  deriving DecidableEq, Repr

end Sys2Proof
end

