-- ==== Sys2Proof/WellFormed.lean ====
section
/-! DEFINITION. Which instructions a word can spell: those whose operand address is 0–511 (spec/30_encoding.md R67). -/

namespace Sys2Proof

/-- The address fits the 9 bits an instruction word gives it (R61). -/
def addressFits (a : Address) : Bool := decide (a.toNat < 512)

/-- "every instruction whose address is 0–511" (R67); a no-operand instruction has no address to check (R64). -/
def Instr.wf : Instr → Bool
  | .store a => addressFits a
  | .load a => addressFits a
  | .add a => addressFits a
  | .branch a => addressFits a
  | .branchIfZero a => addressFits a
  | .clear => true
  | .decrease => true
  | .halt => true

end Sys2Proof
end

