-- ==== Sys2Proof/Decode.lean ====
section
/-! DEFINITION. The instruction encoding of spec/30_encoding.md: fields, decoder, encoder, canonical words. Decoding is
total: all 4,096 words are instructions (R65, R69), so no word is rejected. -/

namespace Sys2Proof

/-- Bits 11–9 of a word (R61). -/
def opcodeField (w : Word) : Opcode := w.extractLsb' 9 3

/-- Bits 8–0 of a word (R61). -/
def addressField (w : Word) : Index := w.extractLsb' 0 9

/-- `Index(a) = a & 0x1FF`: the memory word an Address names (R41). -/
def indexOf (a : Address) : Index := a.extractLsb' 0 9

/-- `zext_12`: a 9-bit index as a 12-bit Address (spec/00_scope.md section 5). -/
def zext12 (i : Index) : Address := i.setWidth 12

/-- The fixed opcode numbering (R62). -/
def opcodeNumber : Instr → Opcode
  | .store _ => 0
  | .load _ => 1
  | .add _ => 2
  | .branch _ => 3
  | .branchIfZero _ => 4
  | .clear => 5
  | .decrease => 6
  | .halt => 7

/-- `Decode(w)` (R65): bits 11, 10 and 9 alone select the instruction, and bits 8–0, zero-extended, are the address of
opcodes 0–4. Bits 8–0 of opcodes 5–7 are ignored (R66, the spec's decision D8; log entry 9: DEDUCED, unsafe). -/
def decode (w : Word) : Instr :=
  match w.getLsbD 11, w.getLsbD 10, w.getLsbD 9 with
  | false, false, false => .store (zext12 (addressField w))
  | false, false, true => .load (zext12 (addressField w))
  | false, true, false => .add (zext12 (addressField w))
  | false, true, true => .branch (zext12 (addressField w))
  | true, false, false => .branchIfZero (zext12 (addressField w))
  | true, false, true => .clear
  | true, true, false => .decrease
  | true, true, true => .halt

/-- The opcode at bits 11–9, the other bits zero: `opcode << 9` (R64). -/
def opcodeBits (op : Opcode) : Word := op.setWidth 12 <<< 9

/-- `(opcode << 9) | (a & 0o777)` (R63). -/
def encodeAddressed (op : Opcode) (a : Address) : Word := opcodeBits op ||| (a &&& 0o777#12)

/-- The word of an instruction (R63, R64). -/
def encode (i : Instr) : Word :=
  match i with
  | .store a => encodeAddressed (opcodeNumber i) a
  | .load a => encodeAddressed (opcodeNumber i) a
  | .add a => encodeAddressed (opcodeNumber i) a
  | .branch a => encodeAddressed (opcodeNumber i) a
  | .branchIfZero a => encodeAddressed (opcodeNumber i) a
  | .clear => opcodeBits (opcodeNumber i)
  | .decrease => opcodeBits (opcodeNumber i)
  | .halt => opcodeBits (opcodeNumber i)

/-- "A word is canonical when its opcode is 0–4, or its opcode is 5–7 and its bits 8–0 are zero" (R66). -/
def canonical (w : Word) : Bool :=
  decide ((opcodeField w).toNat ≤ 4) || decide (addressField w = 0)

/-- The 12-bit instruction word whose bits are `w`, of which the low `nbits` are given and the rest are zero. -/
def tableWord (nbits w : Nat) : Word := BitVec.ofNat 12 (w % 2 ^ nbits)

/-- The decoder on an opcode-table word. A number of more than 12 bits is no word of this machine
(R60; log entry 10: DEDUCED, safe). -/
def decodeTableWord (nbits w : Nat) : Option Instr :=
  if w % 2 ^ nbits < 4096 then some (decode (tableWord nbits w)) else none

end Sys2Proof
end

