-- ==== Sys2Proof/Config.lean ====
section
/-! DEFINITION. What the spec leaves to the implementation: the depth of the modification history (OPEN, D3) and the
register values at power-on (unspecified, R35). Each is an opaque constant, so no proof can use a value of it. -/

namespace Sys2Proof

/-- One less than `HISTORY_DEPTH`. FREE VALUE: spec/92_eei_decisions.md D3 gives no number (log entry 3: DESIGN CHOICE, safe). -/
opaque Config.historyDepthLessOne : Nat

/-- `HISTORY_DEPTH`: "a positive natural number the model takes as an argument" (spec/00_scope.md section 4). -/
def Config.historyDepth : Nat := Config.historyDepthLessOne + 1

/-- `ACC` at power-on. FREE VALUE: unspecified (R35, D5; log entry 4: DESIGN CHOICE, safe). -/
opaque Config.powerOnAcc : Word

/-- `PC` at power-on. FREE VALUE: unspecified (R35, D5; log entry 4: DESIGN CHOICE, safe). -/
opaque Config.powerOnPc : Word

/-- `IR` at power-on. FREE VALUE: unspecified (R35, D5; log entry 4: DESIGN CHOICE, safe). -/
opaque Config.powerOnIr : Word

end Sys2Proof
end

