-- ==== Sys2Proof/Machine/State.lean ====
section
/-! DEFINITION. The state of the execution engine, exactly the tuple `(ACC, PC, IR, MEM, HIST)` of spec/10_state.md R20,
as plain data, with its value after reset, and the ways a step could stop. -/

namespace Sys2Proof.Machine

/-- `MEM` (R29): the words that differ from `Memory.unlisted`, as (index, word) pairs with rising index. The cell is the
12-bit word, not a byte: "There is no byte in this machine" (R46; log entry 1: DESIGN CHOICE, safe). -/
abbrev Memory := List (Nat × Word)

/-- What an unlisted index holds: "fixed array of 512 twelve-bit words, default zero" (R29, R35). -/
def Memory.unlisted : Word := 0

/-- The architectural state, "exactly the tuple `(ACC, PC, IR, MEM, HIST)`" (R20). -/
structure State where
  /-- `ACC`, the accumulator (R21). -/
  acc : Word
  /-- `PC`, all 12 bits kept (R23, R24). -/
  pc : Word
  /-- `IR`, the most recently fetched raw word (R25). -/
  ir : Word
  /-- `MEM`, the 512 words (R29). -/
  mem : Memory
  /-- `HIST`, the stored-to indices, most recent first (R31). -/
  hist : List Index
  deriving DecidableEq, Repr

/-- How the machine could stop with a fault: never. "no runtime fault state exists" (R200), so there is no constructor,
and nobody raises one. Safe: nothing is hidden, since no behaviour of the spec is left out by it. -/
inductive Fault where
  deriving DecidableEq, Repr

/-- Why the model answers no next state. -/
inductive Refusal where
  /-- Raised by `exec` for an instruction that has no meaning yet (none is left). Safe. -/
  | notModelled (mnemonic : String)
  /-- Raised by the `step` transaction of a block whose registers were not reset since power-on (R35; D5: "a step from
  an un-reset state is refused"), never by `exec` or by `Machine.step`. Safe. -/
  | registersNotReset
  deriving DecidableEq, Repr

/-- What a step reports (R86). -/
inductive StepResult where
  | continue
  | halted
  deriving DecidableEq, Repr

/-- Where control goes after an instruction (spec/40_step_cycle.md, head, and R84). -/
inductive Next where
  | advance
  | jump (t : Index)
  | stay
  deriving DecidableEq, Repr

/-- The machine right after power-on and `reset_registers`: `ACC`, `PC`, `IR` zero (R220), every memory word 0 and an
empty history (R35, by the spec's decision D5; log entry 4: DESIGN CHOICE, safe). Every value is the spec's. -/
def State.reset : State := { acc := 0, pc := 0, ir := 0, mem := [], hist := [] }

end Sys2Proof.Machine
end

