-- ==== Sys2Proof/Machine/Ops.lean ====
section
/-! DEFINITION. The operations on memory, history and registers that every instruction is written with: `MemRead`,
`MemWrite`, `PushHistory`, the fetch and the `PC` update. -/

namespace Sys2Proof.Machine

/-- The word listed at a key, or what an unlisted index holds. -/
def Memory.readCell : Memory → Nat → Word
  | [], _ => Memory.unlisted
  | (b, u) :: m, a => if a = b then u else Memory.readCell m a

/-- Put a word at a key, keeping the keys rising and listing no word equal to `Memory.unlisted`. -/
def Memory.writeCell : Memory → Nat → Word → Memory
  | [], a, v => if v = Memory.unlisted then [] else [(a, v)]
  | (b, u) :: m, a, v =>
    if a < b then (if v = Memory.unlisted then (b, u) :: m else (a, v) :: (b, u) :: m)
    else if a = b then (if v = Memory.unlisted then m else (a, v) :: m)
    else (b, u) :: Memory.writeCell m a v

/-- The canonical form from key `lo` on: keys rising, below 512, no word equal to `Memory.unlisted`. -/
def Memory.wfFrom : Nat → Memory → Bool
  | _, [] => true
  | lo, (a, v) :: m =>
    decide (lo ≤ a) && decide (a < 512) && decide (v ≠ Memory.unlisted) && Memory.wfFrom (a + 1) m

/-- The canonical form: equal memories are equal lists. -/
def Memory.wf (m : Memory) : Bool := Memory.wfFrom 0 m

/-- `MemRead(i, 1)` (R42). -/
def Memory.read (m : Memory) (i : Index) : Word := m.readCell i.toNat

/-- `MemWrite(i, 1, v)` (R43). -/
def Memory.write (m : Memory) (i : Index) (v : Word) : Memory := m.writeCell i.toNat v

/-- All 512 words of a memory, index 0 first (R30). -/
def Memory.words (m : Memory) : List Word := (List.range 512).map m.readCell

/-- The canonical list of the words a list of cells gives at the keys from `lo` on, `n` of them. -/
def Memory.canonicalFrom (m : Memory) : Nat → Nat → Memory
  | 0, _ => []
  | n + 1, lo =>
    if m.readCell lo = Memory.unlisted then Memory.canonicalFrom m n (lo + 1)
    else (lo, m.readCell lo) :: Memory.canonicalFrom m n (lo + 1)

/-- The canonical memory with the same 512 words. -/
def Memory.canonical (m : Memory) : Memory := m.canonicalFrom 512 0

/-- The newest `n` entries of a history (`take(n, h)`), by recursion on the history. -/
def keepNewest : List Index → Nat → List Index
  | [], _ => []
  | _ :: _, 0 => []
  | a :: h, n + 1 => a :: keepNewest h n

/-- Write of `ACC`. -/
def State.withAcc (s : State) (v : Word) : State := { s with acc := v }

/-- Write of `PC`. -/
def State.withPc (s : State) (v : Word) : State := { s with pc := v }

/-- Write of `IR`. -/
def State.withIr (s : State) (v : Word) : State := { s with ir := v }

/-- `MemWrite(i, 1, v)` on the state (R43). -/
def State.memWrite (s : State) (i : Index) (v : Word) : State := { s with mem := s.mem.write i v }

/-- `PushHistory(a)`: `HIST <- take(HISTORY_DEPTH, a :: HIST)`, duplicates kept (R31, D4; log entry 9:
DEDUCED, unsafe). -/
def State.pushHistory (s : State) (i : Index) : State :=
  { s with hist := keepNewest (i :: s.hist) Config.historyDepth }

/-- `PC & 0x1FF`, the index a step fetches from (R24, R81). -/
def State.fetchIndex (s : State) : Index := indexOf s.pc

/-- The word a step fetches (R81). -/
def State.fetchWord (s : State) : Word := s.mem.read s.fetchIndex

/-- Fetch: `IR <- MemRead(PC & 0x1FF, 1)` (R81). -/
def State.fetch (s : State) : State := s.withIr s.fetchWord

/-- The `PC` update, a step's last action (R85). The increment wraps modulo 4096. -/
def State.updatePc (s : State) : Next → State
  | .advance => s.withPc (s.pc + 1)
  | .jump t => s.withPc (zext12 t)
  | .stay => s

/-- What a step that executes `i` reports: `Halted` for Halt and `Continue` otherwise (R86). -/
def resultOf : Instr → StepResult
  | .store _ => .continue
  | .load _ => .continue
  | .add _ => .continue
  | .branch _ => .continue
  | .branchIfZero _ => .continue
  | .clear => .continue
  | .decrease => .continue
  | .halt => .halted

end Sys2Proof.Machine
end

