-- ==== Sys2Proof/Machine/Operands.lean ====
section
/-! DEFINITION. The one operand form: the 9-bit absolute address (spec/30_encoding.md R68; the addressing paragraph of
spec/41_load_store.md). -/

namespace Sys2Proof.Machine

/-- The effective address: the operand's low 9 bits, with no base, offset or extension (R41, R68; log entry 2:
DESIGN CHOICE, safe). -/
def effectiveIndex (a : Address) : Index := indexOf a

/-- The operand word Load and Add read: `MemRead(a, 1)` (R44). -/
def State.operandWord (s : State) (a : Address) : Word := s.mem.read (effectiveIndex a)

/-- The target Branch and BranchIfZero load into `PC`: the same 9-bit absolute address (R123). -/
def branchTarget (a : Address) : Next := .jump (effectiveIndex a)

end Sys2Proof.Machine
end

