-- ==== Sys2Proof/Machine/Arithmetic.lean ====
section
/-! DEFINITION. The accumulator arithmetic Add, Clear and Decrease (spec/42_arithmetic.md); everything wraps modulo 4096
and nothing records the wrap (R113). -/

namespace Sys2Proof.Machine

/-- Add (R110): `ACC <- (ACC + MemRead(a, 1)) mod 4096`, `Advance`. -/
def execAdd (a : Address) (s : State) : Host.Outcome State Fault Refusal :=
  .next ((s.withAcc (s.acc + s.operandWord a)).updatePc .advance)

/-- Clear (R111): `ACC <- 0`, `Advance`. -/
def execClear (s : State) : Host.Outcome State Fault Refusal :=
  .next ((s.withAcc 0).updatePc .advance)

/-- Decrease (R112): `ACC <- (ACC - 1) mod 4096`, `Advance`. -/
def execDecrease (s : State) : Host.Outcome State Fault Refusal :=
  .next ((s.withAcc (s.acc - 1)).updatePc .advance)

end Sys2Proof.Machine
end

