-- ==== Sys2Proof/Machine/Flags.lean ====
section
/-! DEFINITION. The machine's one condition, the zero predicate, computed and never stored (spec/10_state.md R26). There
is no carry, overflow, sign or parity flag. -/

namespace Sys2Proof.Machine

/-- `Z = (ACC == 0)`, a test of all 12 bits of the current `ACC` (R26, R121). -/
def State.zero (s : State) : Bool := decide (s.acc = 0)

end Sys2Proof.Machine
end

