-- ==== Sys2Proof/Machine/Control.lean ====
section
/-! DEFINITION. Control transfer and halt: Branch, BranchIfZero and Halt (spec/43_control.md). -/

namespace Sys2Proof.Machine

/-- Branch (R120): `Jump(a)`. -/
def execBranch (a : Address) (s : State) : Host.Outcome State Fault Refusal :=
  .next (s.updatePc (branchTarget a))

/-- BranchIfZero (R121): `Jump(a)` when all 12 bits of `ACC` are zero, else `Advance`. -/
def execBranchIfZero (a : Address) (s : State) : Host.Outcome State Fault Refusal :=
  .next (s.updatePc (if s.zero then branchTarget a else .advance))

/-- Halt (R122): `Stay`. That the step reports `Halted` is `resultOf .halt` (R86): "a normal terminal signal, not an
error", kept in no state (R20, R88; log entry 5: DEDUCED, unsafe
only for a claim about stored halt state). -/
def execHalt (s : State) : Host.Outcome State Fault Refusal :=
  .next (s.updatePc .stay)

end Sys2Proof.Machine
end

