-- ==== Sys2Proof/Machine/LoadStore.lean ====
section
/-! DEFINITION. The memory-access instructions Store and Load (spec/41_load_store.md). -/

namespace Sys2Proof.Machine

/-- Store (R100): `MemWrite(a, 1, ACC)`, `PushHistory(a)`, `Advance`. -/
def execStore (a : Address) (s : State) : Host.Outcome State Fault Refusal :=
  .next (((s.memWrite (effectiveIndex a) s.acc).pushHistory (effectiveIndex a)).updatePc .advance)

/-- Load (R101): `ACC <- MemRead(a, 1)`, `Advance`. -/
def execLoad (a : Address) (s : State) : Host.Outcome State Fault Refusal :=
  .next ((s.withAcc (s.operandWord a)).updatePc .advance)

end Sys2Proof.Machine
end

