-- ==== Sys2Proof/Machine/Dispatch.lean ====
section
/-! DEFINITION. One arm per instruction: the execute action and the `PC` update (spec/40_step_cycle.md R83–R85). -/

namespace Sys2Proof.Machine

/-- The effect of an instruction on the state its fetch left (R83). -/
def exec (i : Instr) (s : State) : Host.Outcome State Fault Refusal :=
  match i with
  | .store a => Sys2Proof.Machine.execStore a s
  | .load a => Sys2Proof.Machine.execLoad a s
  | .add a => Sys2Proof.Machine.execAdd a s
  | .branch a => Sys2Proof.Machine.execBranch a s
  | .branchIfZero a => Sys2Proof.Machine.execBranchIfZero a s
  | .clear => Sys2Proof.Machine.execClear s
  | .decrease => Sys2Proof.Machine.execDecrease s
  | .halt => Sys2Proof.Machine.execHalt s

end Sys2Proof.Machine
end

