-- ==== Sys2Proof/Machine/Step.lean ====
section
/-! DEFINITION. One fetch-decode-execute step (spec/40_step_cycle.md R80–R87), what it reports, and how an instruction
word is placed where the next step fetches. -/

namespace Sys2Proof.Machine

/-- Fetch into `IR` (R81), decode `IR` (R82), execute and update `PC` (R83–R85). -/
def step (s : State) : Host.Outcome State Fault Refusal :=
  exec (decode s.fetch.ir) s.fetch

/-- What the step taken at `s` reports (R86). -/
def stepResult (s : State) : StepResult := resultOf (decode s.fetchWord)

/-- `step() -> ContinueOrHalt` (R80): the state after and what is reported (log entry 5: DEDUCED, unsafe only for a claim
about stored halt state). -/
def stepReporting (s : State) : Host.Outcome (State × StepResult) Fault Refusal :=
  match step s with
  | .next t => .next (t, stepResult s)
  | .fault r => .fault r
  | .refused r => .refused r

/-- The state with the instruction word whose bits are `w` stored where the next step fetches: index `PC & 0x1FF`.
It stands for the caller's load of one word (R223; log entry 10: DEDUCED, safe). -/
def State.withFetchWord (s : State) (nbits w : Nat) : State :=
  s.memWrite s.fetchIndex (tableWord nbits w)

end Sys2Proof.Machine
end

