-- ==== Sys2Proof/Machine/Accesses.lean ====
section
/-! DEFINITION. The memory accesses of one step, in order (spec/20_memory.md R44): a readout of the step for statements
about its memory interface. The step itself is in Step.lean (log entry 11: DESIGN CHOICE, safe). -/

namespace Sys2Proof.Machine

/-- One access: a read with the word it returns, or a write with the word it stores (R42, R43). -/
inductive Access where
  | read (i : Index) (w : Word)
  | write (i : Index) (v : Word)
  deriving DecidableEq, Repr

/-- The accesses an instruction makes after its fetch (R44's table). -/
def operandAccesses (i : Instr) (s : State) : List Access :=
  match i with
  | .store a => [.write (effectiveIndex a) s.acc]
  | .load a => [.read (effectiveIndex a) (s.operandWord a)]
  | .add a => [.read (effectiveIndex a) (s.operandWord a)]
  | .branch _ => []
  | .branchIfZero _ => []
  | .clear => []
  | .decrease => []
  | .halt => []

/-- The accesses of the step taken at `s`: the fetch read, then the instruction's (R44). -/
def stepAccesses (s : State) : List Access :=
  .read s.fetchIndex s.fetchWord :: operandAccesses (decode s.fetchWord) s

/-- The memory after an access. -/
def Memory.apply (m : Memory) : Access → Memory
  | .read _ _ => m
  | .write i v => m.write i v

end Sys2Proof.Machine
end

