-- ==== Sys2Proof/Machine/AsmSource.lean ====
section
/-! DEFINITION. What the assembler's stages hand on: structured lines (spec/44_asm_parser.md R130) and the error taxonomy
(spec/45_asm_passes.md R176). -/

namespace Sys2Proof.Asm

/-- Source text, a sequence of characters. -/
abbrev Source := List Char

/-- A label name, compared letter for letter (R136, R165). -/
abbrev LabelName := List Char

/-- The five addressed instructions (R9). -/
inductive AddressedOp where
  | store
  | load
  | add
  | branch
  | branchIfZero
  deriving DecidableEq, Repr

/-- The three no-operand instructions (R9). -/
inductive PlainOp where
  | clear
  | decrease
  | halt
  deriving DecidableEq, Repr

/-- The operand of an addressed instruction, the source's "Direction" (R130). -/
inductive Direction where
  | lit (a : Address)
  | sym (name : LabelName)
  deriving DecidableEq, Repr

/-- The assembler-time pseudo-operations (R130). -/
inductive Directive where
  | org (a : Address)
  | data (v : Word)
  | reserve (n : Word)
  | endOfProgram
  deriving DecidableEq, Repr

/-- A command: an instruction with its operand unresolved, or a directive (R130). -/
inductive Command where
  | addressed (op : AddressedOp) (d : Direction)
  | plain (op : PlainOp)
  | dir (d : Directive)
  deriving DecidableEq, Repr

/-- A structured line: an optional label and an optional command (R130). -/
structure Line where
  label : Option LabelName
  cmd : Option Command
  deriving DecidableEq, Repr

/-- The operand kinds `InvalidParameter` names (R142). -/
inductive ExpectedKind where
  | direction
  | address
  | number
  deriving DecidableEq, Repr

/-- The error taxonomy (R176). -/
inductive AsmError where
  | parseError
  | invalidLabelName
  | missingParameter
  | invalidParameter (expected : ExpectedKind)
  | invalidNumber
  | invalidInstruction (name : List Char)
  | redefinedLabel (name : LabelName)
  | undefinedLabel (name : LabelName)
  | syntaxError
  deriving DecidableEq, Repr

/-- A failed assembly: the error and, for a parse failure, "the source text from the start of the offending token to the
end of the source" (R146). The passes' failures carry no position (log entry 15: DESIGN CHOICE,
unsafe for a claim about that). -/
structure Failure where
  error : AsmError
  rest : Option Source
  deriving DecidableEq, Repr

/-- The instruction an addressed operation stands for once its operand is resolved (R168). -/
def AddressedOp.toInstr : AddressedOp → Address → Instr
  | .store, a => .store a
  | .load, a => .load a
  | .add, a => .add a
  | .branch, a => .branch a
  | .branchIfZero, a => .branchIfZero a

/-- The instruction a no-operand operation stands for. -/
def PlainOp.toInstr : PlainOp → Instr
  | .clear => .clear
  | .decrease => .decrease
  | .halt => .halt

end Sys2Proof.Asm
end

