-- ==== Sys2Proof/Machine/AsmPrinter.lean ====
section
/-! DEFINITION. One spelling of a list of structured lines in the grammar of spec/44_asm_parser.md R133 and R139: what the
parser is held against. The spec describes no printer; this one is the model's own, for a statement
(log entry 11: DESIGN CHOICE, safe). -/

namespace Sys2Proof.Asm

/-- A 12-bit value as four decimal digits, leading zeros kept (R140 allows them). -/
def printNumber (v : Word) : List Char :=
  [v.toNat / 1000, v.toNat / 100 % 10, v.toNat / 10 % 10, v.toNat % 10].map fun d => Char.ofNat ('0'.toNat + d)

/-- A Direction: `/N` or a bare label name (R139). -/
def printDirection : Direction → List Char
  | .lit a => '/' :: printNumber a
  | .sym n => n

/-- The mnemonic of an addressed instruction (R138). -/
def AddressedOp.mnemonic : AddressedOp → List Char
  | .store => ['s', 't']
  | .load => ['l', 'd']
  | .add => ['a', 'd', 'd']
  | .branch => ['b', 'r']
  | .branchIfZero => ['b', 'z']

/-- The mnemonic of a no-operand instruction (R138). -/
def PlainOp.mnemonic : PlainOp → List Char
  | .clear => ['c', 'l', 'r']
  | .decrease => ['d', 'e', 'c']
  | .halt => ['h', 'a', 'l', 't']

/-- A directive with its operand (R138). -/
def printDirective : Directive → List Char
  | .org a => ['o', 'r', 'g', ' ', '/'] ++ printNumber a
  | .data v => ['d', 'a', 't', 'a', ' '] ++ printNumber v
  | .reserve n => ['r', 'e', 's', ' '] ++ printNumber n
  | .endOfProgram => ['e', 'n', 'd']

/-- A command (R133). -/
def printCommand : Command → List Char
  | .addressed op d => op.mnemonic ++ ' ' :: printDirection d
  | .plain op => op.mnemonic
  | .dir d => printDirective d

/-- A label field: the name with its colon, or nothing (R135). -/
def printLabelField : Option LabelName → List Char
  | some n => n ++ [':']
  | none => []

/-- The command, or nothing (R133). -/
def printCommandField : Option Command → List Char
  | some c => printCommand c
  | none => []

/-- A line: the label field in column 0, a space, and the command (R133). -/
def printLine (ln : Line) : List Char := printLabelField ln.label ++ ' ' :: printCommandField ln.cmd

/-- The lines, each ended by a newline (R131). -/
def printLines : List Line → Source
  | [] => []
  | ln :: more => printLine ln ++ '\n' :: printLines more

end Sys2Proof.Asm
end

