-- ==== Sys2Proof/Machine/Reference.lean ====
section
/-! DEFINITION. The whole step of spec/40_step_cycle.md R87 transcribed a second time, over natural numbers and a memory
that is a function, with `mod` and `div` written out as the spec writes them: what `Machine.step` is held against
(log entry 11: DESIGN CHOICE, safe). -/

namespace Sys2Proof.Reference

/-- The tuple of R20 as natural numbers. It is no machine state of the model (it holds a function), only the right-hand
side of a statement. -/
structure Tuple where
  acc : Nat
  pc : Nat
  ir : Nat
  mem : Nat → Nat
  hist : List Nat

/-- The `PC` update (R85). -/
inductive Next where
  | advance
  | jump (t : Nat)
  | stay

/-- `Advance`, `Jump(t)` or `Stay` (R85). -/
def nextPc (pc : Nat) : Next → Nat
  | .advance => (pc + 1) % 4096
  | .jump t => t
  | .stay => pc

/-- The fetched word (R81). -/
def fetched (s : Tuple) : Nat := s.mem (s.pc % 512)

/-- The address field of a word, bits 8–0 (R61). -/
def addressOf (w : Nat) : Nat := w % 512

/-- The execute action of the word `w` on `s`: opcode `w / 512` (R83, R84). The last case is opcode 7. -/
def execute (depth w : Nat) (s : Tuple) : Tuple × Next :=
  match w / 512 with
  | 0 =>
    ({ s with mem := fun i => if i = addressOf w then s.acc else s.mem i,
              hist := (addressOf w :: s.hist).take depth }, .advance)
  | 1 => ({ s with acc := s.mem (addressOf w) }, .advance)
  | 2 => ({ s with acc := (s.acc + s.mem (addressOf w)) % 4096 }, .advance)
  | 3 => (s, .jump (addressOf w))
  | 4 => (s, if s.acc = 0 then .jump (addressOf w) else .advance)
  | 5 => ({ s with acc := 0 }, .advance)
  | 6 => ({ s with acc := (s.acc + 4095) % 4096 }, .advance)
  | _ => (s, .stay)

/-- `Step(s)` (R87). -/
def step (depth : Nat) (s : Tuple) : Tuple × Machine.StepResult :=
  let w := fetched s
  let (t, next) := execute depth w { s with ir := w }
  ({ t with pc := nextPc s.pc next }, if w / 512 = 7 then .halted else .continue)

/-- The tuple of natural numbers a state of the model stands for. -/
def ofState (s : Machine.State) : Tuple :=
  { acc := s.acc.toNat, pc := s.pc.toNat, ir := s.ir.toNat,
    mem := fun i => (s.mem.readCell i).toNat, hist := s.hist.map BitVec.toNat }

end Sys2Proof.Reference
end

