-- ==== Sys2Proof/Machine/AsmParser.lean ====
section
/-! DEFINITION. Assembler stage 1, the parser (spec/44_asm_parser.md): lines and tokens, label fields, mnemonics, operands
and the order in which a line is checked. Where a rule rests on one of the spec's own decisions D13–D22, the model
follows it (log entry 14: DEDUCED, unsafe). -/

namespace Sys2Proof.Asm

/-- Whitespace inside a line: space, horizontal tab, carriage return (R131). -/
def isSpace (c : Char) : Bool := c == ' ' || c == '\t' || c == '\r'

/-- `tokenchar`: any character but whitespace, `;` and newline (R133). -/
def isTokenChar (c : Char) : Bool := !isSpace c && c != ';' && c != '\n'

/-- `letter` (R133). -/
def isLetter (c : Char) : Bool := ('A' ≤ c && c ≤ 'Z') || ('a' ≤ c && c ≤ 'z')

/-- `digit` (R133). -/
def isDigit (c : Char) : Bool := '0' ≤ c && c ≤ '9'

/-- A character of a name after its first letter (R133). -/
def isNameChar (c : Char) : Bool := isLetter c || isDigit c || c == '_'

/-- `letter {letter | digit | _}` (R133, R139). -/
def isName : List Char → Bool
  | [] => false
  | c :: cs => isLetter c && cs.all isNameChar

/-- `digit+` (R139). -/
def isDigits (cs : List Char) : Bool := !cs.isEmpty && cs.all isDigit

/-- The decimal value of a digit string, leading zeros allowed (R140). -/
def decimalValue (cs : List Char) : Nat := cs.foldl (fun n c => 10 * n + (c.toNat - '0'.toNat)) 0

/-- `LITERAL_MAX` (spec/00_scope.md section 4, R140). -/
def literalMax : Nat := 4095

/-- A lower-case letter for an ASCII capital, any other character as it is (R137). -/
def lowerChar (c : Char) : Char := if 'A' ≤ c && c ≤ 'Z' then Char.ofNat (c.toNat + 32) else c

/-- A token and the source text from its first character to the end of the source (R146). -/
structure Token where
  text : List Char
  rest : Source
  deriving DecidableEq, Repr

/-- A parse failure at a token (R146). -/
def failAt {α : Type} (t : Token) (e : AsmError) : Except Failure α :=
  .error { error := e, rest := some t.rest }

/-- The source from the first character of each line on. Empty lines give no line: newlines separate lines "by one or
more" and leading blank lines are skipped (R131). `fresh` says that the next character begins a line (log entry 13: DEDUCED, safe). -/
def lineStarts : Bool → Source → List Source
  | _, [] => []
  | fresh, c :: cs =>
    if c = '\n' then lineStarts true cs
    else if fresh then (c :: cs) :: lineStarts false cs
    else lineStarts false cs

/-- The tokens from here to the end of the line or the start of its comment (R132, R133). `pending` is the token whose
last character was just read. -/
def lexLine : Option Token → Source → List Token
  | pending, [] => pending.toList
  | pending, c :: cs =>
    if c = '\n' ∨ c = ';' then pending.toList
    else if isSpace c then pending.toList ++ lexLine none cs
    else match pending with
      | none => lexLine (some { text := [c], rest := c :: cs }) cs
      | some t => lexLine (some { t with text := t.text ++ [c] }) cs

/-- The label field's text without the one `:` that may end it (R135). -/
def stripColon (cs : List Char) : List Char := if cs.getLast? = some ':' then cs.dropLast else cs

/-- The name of a label field (R135). -/
def parseLabel (t : Token) : Except Failure LabelName :=
  if isName (stripColon t.text) then .ok (stripColon t.text) else failAt t .invalidLabelName

/-- What a mnemonic names, and so the operand it takes (R138, R142). -/
inductive Mnemonic where
  | addressed (op : AddressedOp)
  | plain (op : PlainOp)
  | org
  | data
  | reserve
  | endOfProgram
  deriving DecidableEq, Repr

/-- The fixed mnemonic table (R138; `st`, `clr` and `dec` rest on D12, log entry 6: PRESUMED, unsafe). -/
def mnemonicTable : List (List Char × Mnemonic) :=
  [(['s', 't'], .addressed .store), (['l', 'd'], .addressed .load), (['a', 'd', 'd'], .addressed .add),
   (['b', 'r'], .addressed .branch), (['b', 'z'], .addressed .branchIfZero),
   (['c', 'l', 'r'], .plain .clear), (['d', 'e', 'c'], .plain .decrease), (['h', 'a', 'l', 't'], .plain .halt),
   (['o', 'r', 'g'], .org), (['d', 'a', 't', 'a'], .data), (['r', 'e', 's'], .reserve),
   (['e', 'n', 'd'], .endOfProgram)]

/-- The mnemonic a token spells, in any case (R137). -/
def lookupMnemonic (text : List Char) : Option Mnemonic := mnemonicTable.lookup (text.map lowerChar)

/-- An operand token's form and value (R139). -/
inductive OperandForm where
  | number (n : Word)
  | address (a : Address)
  | label (name : LabelName)
  deriving DecidableEq, Repr

/-- The value of a digit string, at most `LITERAL_MAX` (R140). -/
def parseLiteral (t : Token) (digits : List Char) : Except Failure Word :=
  if decimalValue digits ≤ literalMax then .ok (BitVec.ofNat 12 (decimalValue digits)) else failAt t .invalidNumber

/-- The slash-minus form with number N denotes `(4096 − N) mod 4096` (R141). -/
def negatedAddress (n : Word) : Address := BitVec.ofNat 12 ((4096 - n.toNat) % 4096)

/-- The operand after a leading `/` (R139): an address literal or a label reference. -/
def classifySlash (t : Token) (body : List Char) : Except Failure OperandForm :=
  if isDigits body then (parseLiteral t body).map .address
  else if isName body then .ok (.label body)
  else match body with
    | '-' :: digits =>
      if isDigits digits then (parseLiteral t digits).map fun n => .address (negatedAddress n)
      else failAt t .parseError
    | _ => failAt t .parseError

/-- The spelling of an operand token (R139). -/
def classify (t : Token) : Except Failure OperandForm :=
  match t.text with
  | '/' :: body => classifySlash t body
  | body =>
    if isDigits body then (parseLiteral t body).map .number
    else if isName body then .ok (.label body)
    else failAt t .parseError

/-- An instruction's operand: an address literal or a label reference (R142). -/
def asDirection (t : Token) : OperandForm → Except Failure Direction
  | .address a => .ok (.lit a)
  | .label n => .ok (.sym n)
  | .number _ => failAt t (.invalidParameter .direction)

/-- `org`'s operand: an address literal (R142). -/
def asAddress (t : Token) : OperandForm → Except Failure Address
  | .address a => .ok a
  | .label _ => failAt t (.invalidParameter .address)
  | .number _ => failAt t (.invalidParameter .address)

/-- `data`'s and `res`'s operand: a number (R142). -/
def asNumber (t : Token) : OperandForm → Except Failure Word
  | .number n => .ok n
  | .address _ => failAt t (.invalidParameter .number)
  | .label _ => failAt t (.invalidParameter .number)

/-- The spelling of every token in turn (R139, R140). -/
def checkSpellings : List Token → Except Failure Unit
  | [] => .ok ()
  | t :: ts =>
    match classify t with
    | .error f => .error f
    | .ok _ => checkSpellings ts

/-- The tokens after the operands a mnemonic takes: their spelling (they are operands by R139, checked "each operand in
turn", R145), then that there are none (R144). R145 checks each operand's kind too; the model checks none for them, since
R142 gives a mnemonic no kind for an operand it does not take (log entry 8: DEDUCED, unsafe, for both). -/
def checkSurplus (ts : List Token) : Except Failure Unit :=
  match checkSpellings ts with
  | .error f => .error f
  | .ok _ =>
    match ts with
    | [] => .ok ()
    | t :: _ => failAt t .syntaxError

/-- The one operand of a mnemonic that takes one: its spelling, its kind, that it is there, and that nothing follows it
(R142–R145). A missing operand is reported at the mnemonic (log entry 7: DESIGN CHOICE, unsafe). -/
def parseOperand {α : Type} (m : Token) (kind : Token → OperandForm → Except Failure α) :
    List Token → Except Failure α
  | [] => failAt m .missingParameter
  | t :: more =>
    match classify t with
    | .error f => .error f
    | .ok form =>
      match kind t form with
      | .error f => .error f
      | .ok v =>
        match checkSurplus more with
        | .error f => .error f
        | .ok _ => .ok v

/-- A mnemonic with its operand tokens (R142). -/
def parseMnemonic (m : Token) (ops : List Token) : Mnemonic → Except Failure Command
  | .addressed op => (parseOperand m asDirection ops).map (.addressed op)
  | .plain op => (checkSurplus ops).map fun _ => .plain op
  | .org => (parseOperand m asAddress ops).map fun a => .dir (.org a)
  | .data => (parseOperand m asNumber ops).map fun n => .dir (.data n)
  | .reserve => (parseOperand m asNumber ops).map fun n => .dir (.reserve n)
  | .endOfProgram => (checkSurplus ops).map fun _ => .dir .endOfProgram

/-- The command the tokens after the label field spell (R137). -/
def parseCommand : List Token → Except Failure (Option Command)
  | [] => .ok none
  | m :: ops =>
    match lookupMnemonic m.text with
    | none => failAt m (.invalidInstruction m.text)
    | some k => (parseMnemonic m ops k).map some

/-- Whether a line has a label field: its first character is a token character (R134). -/
def hasLabelField : Source → Bool
  | [] => false
  | c :: _ => isTokenChar c

/-- A line from its tokens, the first of them the label field if there is one (R134–R136, R145). -/
def parseTokens (labelled : Bool) (ts : List Token) : Except Failure Line :=
  match labelled, ts with
  | true, t :: more =>
    match parseLabel t with
    | .error f => .error f
    | .ok name => (parseCommand more).map fun c => { label := some name, cmd := c }
  | _, ts => (parseCommand ts).map fun c => { label := none, cmd := c }

/-- One line, given as the source from its first character on (R133). -/
def parseLine (src : Source) : Except Failure Line := parseTokens (hasLabelField src) (lexLine none src)

/-- The lines in order, up to the first that fails (R145). -/
def parseLines : List Source → Except Failure (List Line)
  | [] => .ok []
  | src :: more =>
    match parseLine src with
    | .error f => .error f
    | .ok line => (parseLines more).map fun lines => line :: lines

/-- `parse(source) -> sequence<Line> | ParseError` (R130). -/
def parse (src : Source) : Except Failure (List Line) := parseLines (lineStarts true src)

end Sys2Proof.Asm
end

