-- ==== Sys2Proof/Machine/AsmPasses.lean ====
section
/-! DEFINITION. Assembler stages 2 and 3: the label resolver (pass 1), the operand resolver and encoder (pass 2), and the
whole `assemble` (spec/45_asm_passes.md R160–R178). Where a rule rests on the spec's own decisions (D15, D22, D23) or
resolutions (C5), the model follows it (log entry 14: DEDUCED, unsafe). -/

namespace Sys2Proof.Asm

open Sys2Proof.Machine (Memory)

/-- The symbol table, label name to Address (R165). -/
abbrev Table := List (LabelName × Address)

/-- The Address a label is bound to (R165, R168). -/
def Table.find : Table → LabelName → Option Address
  | [], _ => none
  | (m, a) :: more, n => if n = m then some a else Table.find more n

/-- The location counter after a command, modulo 4096 (R161, R163). -/
def advance (counter : Address) : Option Command → Address
  | some (.dir (.org a)) => a
  | some (.dir (.reserve n)) => counter + n
  | some (.addressed _ _) => counter + 1
  | some (.plain _) => counter + 1
  | some (.dir (.data _)) => counter + 1
  | some (.dir .endOfProgram) => counter
  | none => counter

/-- The table with a line's label bound to the counter, unless already present (R162). -/
def bindLabel (table : Table) (counter : Address) : Option LabelName → Except Failure Table
  | none => .ok table
  | some n =>
    match table.find n with
    | some _ => .error { error := .redefinedLabel n, rest := none }
    | none => .ok ((n, counter) :: table)

/-- Pass 1 over every line, those after an `end` too (R162–R164). -/
def pass1 : Table → Address → List Line → Except Failure Table
  | table, _, [] => .ok table
  | table, counter, ln :: more =>
    match bindLabel table counter ln.label with
    | .error f => .error f
    | .ok table' => pass1 table' (advance counter ln.cmd) more

/-- The Address of an operand: a literal as it is, a label from the table (R168). -/
def resolve (table : Table) : Direction → Except Failure Address
  | .lit a => .ok a
  | .sym n =>
    match table.find n with
    | some a => .ok a
    | none => .error { error := .undefinedLabel n, rest := none }

/-- The word a line places, if it places one (R167, R168, R171). -/
def emit (table : Table) : Option Command → Except Failure (Option Word)
  | some (.addressed op d) => (resolve table d).map fun a => some (encode (op.toInstr a))
  | some (.plain op) => .ok (some (encode op.toInstr))
  | some (.dir (.data v)) => .ok (some v)
  | some (.dir (.org _)) => .ok none
  | some (.dir (.reserve _)) => .ok none
  | some (.dir .endOfProgram) => .ok none
  | none => .ok none

/-- The image with a line's word at the counter's low 9 bits (R167–R169). -/
def place (image : Memory) (counter : Address) : Option Word → Memory
  | some w => image.write (indexOf counter) w
  | none => image

/-- Pass 2 up to the first `end` (R166–R173). -/
def pass2 (table : Table) : Memory → Address → List Line → Except Failure Memory
  | image, _, [] => .ok image
  | image, counter, ln :: more =>
    if ln.cmd = some (.dir .endOfProgram) then .ok image
    else
      match emit table ln.cmd with
      | .error f => .error f
      | .ok w => pass2 table (place image counter w) (advance counter ln.cmd) more

/-- Both passes: pass 1 completes before any operand is resolved (R165); pass 2 starts on an image that is all zero (R166). -/
def assembleLines (lines : List Line) : Except Failure Memory :=
  match pass1 [] 0 lines with
  | .error f => .error f
  | .ok table => pass2 table [] 0 lines

/-- `assemble(source) -> Result<Memory, AssemblyError>` (R160, R178). -/
def assemble (src : Source) : Except Failure Memory :=
  match parse src with
  | .error f => .error f
  | .ok lines => assembleLines lines

end Sys2Proof.Asm
end

