-- ==== Sys2Proof/Machine/Transactions.lean ====
section
/-! DEFINITION. The seven transactions through which the one caller drives the block (spec/00_scope.md R11 and its host
interaction table; spec/70_reset_and_hazards.md R220–R224). No two of them run at once (R10; log entry 16: DEDUCED, safe). -/

namespace Sys2Proof.Machine

/-- `reset_registers()`: `ACC`, `PC`, `IR` zero; `MEM` and `HIST` unchanged (R220). -/
def State.resetRegisters (s : State) : State := ((s.withAcc 0).withPc 0).withIr 0

/-- `set_memory(image)`: all 512 words replaced, `HIST` emptied; `ACC`, `PC`, `IR` unchanged (R222, D6; log
entries 9: DEDUCED, unsafe, and 12: DESIGN CHOICE, safe). -/
def State.setMemory (s : State) (image : Memory) : State := { s with mem := image.canonical, hist := [] }

/-- What the register readout gives (R34). -/
structure Registers where
  acc : Word
  pc : Word
  ir : Word
  zero : Bool
  deriving DecidableEq, Repr

/-- The register readout (R34). -/
def State.registers (s : State) : Registers := { acc := s.acc, pc := s.pc, ir := s.ir, zero := s.zero }

/-- The state at power-on: memory all 0, history empty, `ACC`, `PC` and `IR` unspecified (R35). -/
def State.powerOn : State :=
  { acc := Config.powerOnAcc, pc := Config.powerOnPc, ir := Config.powerOnIr, mem := [], hist := [] }

/-- The block as its caller meets it: the engine's state, and whether the caller has run `reset_registers` since
power-on. The second is the MODEL'S own record of a duty the spec puts on the caller (R35, D5), no state of the machine
(R20; log entry 4: DESIGN CHOICE, safe). -/
structure Block where
  core : State
  registersReset : Bool
  deriving DecidableEq, Repr

/-- The block at power-on (R35). -/
def Block.powerOn : Block := { core := State.powerOn, registersReset := false }

/-- What the caller may ask (R11). -/
inductive Transaction where
  | assemble (source : Asm.Source)
  | setMemory (image : Memory)
  | resetRegisters
  | step
  | memory
  | lastModifications
  | registers
  deriving DecidableEq, Repr

/-- What the caller gets back (R11's table). -/
inductive Reply where
  | nothing
  | image (m : Memory)
  | assemblyFailed (f : Asm.Failure)
  | stepped (r : StepResult)
  | memory (m : Memory)
  | history (h : List Index)
  | registers (r : Registers)
  deriving DecidableEq, Repr

/-- The reply of `assemble` (R160, R174). -/
def assembleReply (src : Asm.Source) : Reply :=
  match Asm.assemble src with
  | .ok m => .image m
  | .error f => .assemblyFailed f

/-- The `step` transaction, refused until `reset_registers` has run once (R35, R223, D5). -/
def transactStep (b : Block) : Host.Outcome (Block × Reply) Fault Refusal :=
  if b.registersReset then
    match stepReporting b.core with
    | .next (t, r) => .next ({ b with core := t }, .stepped r)
    | .fault r => .fault r
    | .refused r => .refused r
  else .refused .registersNotReset

/-- One transaction, indivisible (R11). -/
def transact (b : Block) : Transaction → Host.Outcome (Block × Reply) Fault Refusal
  | .assemble src => .next (b, assembleReply src)
  | .setMemory image => .next ({ b with core := b.core.setMemory image }, .nothing)
  | .resetRegisters => .next ({ core := b.core.resetRegisters, registersReset := true }, .nothing)
  | .step => transactStep b
  | .memory => .next (b, .memory b.core.mem)
  | .lastModifications => .next (b, .history b.core.hist)
  | .registers => .next (b, .registers b.core.registers)

end Sys2Proof.Machine
end

