-- ==== Sys2Proof/Safety.lean ====
section
/-! DEFINITION. The terms claims use: the invariant of the state, steps in sequence, the end of a run
(spec/40_step_cycle.md R89), and what a list of source lines says of labels, counters and image words. -/

namespace Sys2Proof.Machine

/-- What every state of the machine meets: memory in canonical form and a history of at most `HISTORY_DEPTH` entries
(R31). -/
def State.Inv (s : State) : Prop := s.mem.wf = true ∧ s.hist.length ≤ Config.historyDepth

/-- The state after `n` steps; the steps go on past a Halt (R88, R89). -/
def stepMany : Nat → State → Host.Outcome State Fault Refusal
  | 0, s => .next s
  | n + 1, s =>
    match step s with
    | .next t => stepMany n t
    | .fault r => .fault r
    | .refused r => .refused r

/-- A run from `s` ends with its step number `n + 1`: the first `n` steps report `Continue`, the next one reports
`Halted` and leaves `t` (R89). -/
def HaltsAfter : Nat → State → State → Prop
  | 0, s, t => stepReporting s = .next (t, .halted)
  | n + 1, s, t => ∃ u, stepReporting s = .next (u, .continue) ∧ HaltsAfter n u t

end Sys2Proof.Machine

namespace Sys2Proof.Asm

/-- The labels a list of lines defines, in order (R162). -/
def labelsOf (lines : List Line) : List LabelName := lines.filterMap fun ln => ln.label

/-- The location counter after a list of lines (R163). -/
def counterAfter (counter : Address) (lines : List Line) : Address :=
  lines.foldl (fun c ln => advance c ln.cmd) counter

/-- Whether a list of lines has an `end` (R172). -/
def hasEnd (lines : List Line) : Bool := lines.any fun ln => decide (ln.cmd = some (.dir .endOfProgram))

/-- Whether a command places a word: an instruction or `data` (R167, R168, R171). -/
def placesWord : Option Command → Bool
  | some (.addressed _ _) => true
  | some (.plain _) => true
  | some (.dir (.data _)) => true
  | some (.dir (.org _)) => false
  | some (.dir (.reserve _)) => false
  | some (.dir .endOfProgram) => false
  | none => false

/-- Whether some line, before the first `end`, places a word at image index `j`, the counter starting as given (R169). -/
def writesIndex (j : Index) : Address → List Line → Bool
  | _, [] => false
  | counter, ln :: more =>
    if ln.cmd = some (.dir .endOfProgram) then false
    else (placesWord ln.cmd && decide (indexOf counter = j)) || writesIndex j (advance counter ln.cmd) more

/-- An operand with its label, if the table has it, replaced by the Address it is bound to (R168). -/
def Direction.withLiteral (table : Table) : Direction → Direction
  | .lit a => .lit a
  | .sym n => match table.find n with
    | some a => .lit a
    | none => .sym n

/-- A command with its label operand replaced so (R177). -/
def Command.withLiterals (table : Table) : Command → Command
  | .addressed op d => .addressed op (d.withLiteral table)
  | .plain op => .plain op
  | .dir d => .dir d

/-- A line with its label operand replaced so (R177). -/
def Line.withLiterals (table : Table) (ln : Line) : Line := { ln with cmd := ln.cmd.map (Command.withLiterals table) }

/-- An operand whose label, if it has one, is a name the grammar can spell (R139). -/
def Direction.spellable : Direction → Bool
  | .lit _ => true
  | .sym n => isName n

/-- A command whose operand is spellable. -/
def Command.spellable : Command → Bool
  | .addressed _ d => d.spellable
  | .plain _ => true
  | .dir _ => true

/-- A line whose label and whose operand label are names the grammar can spell (R133). -/
def Line.spellable (ln : Line) : Bool := ln.label.all isName && ln.cmd.all Command.spellable

/-- The operand kind a mnemonic takes, if it takes an operand (R142's table). -/
def Mnemonic.operandKind : Mnemonic → Option ExpectedKind
  | .addressed _ => some .direction
  | .plain _ => none
  | .org => some .address
  | .data => some .number
  | .reserve => some .number
  | .endOfProgram => none

/-- Whether an operand form is of a kind (R142). -/
def OperandForm.hasKind : OperandForm → ExpectedKind → Bool
  | .number _, k => decide (k = .number)
  | .address _, k => decide (k = .direction ∨ k = .address)
  | .label _, k => decide (k = .direction)

/-- `Offends labelled earlier t later e`: in a line whose tokens are `earlier`, `t` and `later`, the first of them the
label field when `labelled`, the token `t` fails the check of R145 that raises the error `e`. -/
inductive Offends (labelled : Bool) : List Token → Token → List Token → AsmError → Prop where
  /-- A label field that is no label name (R135). -/
  | label {t : Token} {later : List Token} : labelled = true → isName (stripColon t.text) = false →
      Offends labelled [] t later .invalidLabelName
  /-- An unknown mnemonic, the first token after the label field (R137). -/
  | mnemonic {field later : List Token} {t : Token} : field.length = labelled.toNat →
      lookupMnemonic t.text = none → Offends labelled field t later (.invalidInstruction t.text)
  /-- An operand token of no known form or with a number too large (R139, R140). -/
  | spelling {field ops later : List Token} {m t : Token} {e : AsmError} : field.length = labelled.toNat →
      (lookupMnemonic m.text).isSome = true → classify t = .error { error := e, rest := some t.rest } →
      e = .parseError ∨ e = .invalidNumber → Offends labelled (field ++ m :: ops) t later e
  /-- A first operand of another kind than its mnemonic takes (R142). -/
  | kind {field later : List Token} {m t : Token} {k : Mnemonic} {form : OperandForm} {expected : ExpectedKind} :
      field.length = labelled.toNat → lookupMnemonic m.text = some k → k.operandKind = some expected →
      classify t = .ok form → form.hasKind expected = false →
      Offends labelled (field ++ [m]) t later (.invalidParameter expected)
  /-- A mnemonic that takes an operand and is the line's last token (R143; log entry 7: DESIGN CHOICE, unsafe). -/
  | missing {field : List Token} {t : Token} {k : Mnemonic} : field.length = labelled.toNat →
      lookupMnemonic t.text = some k → k.operandKind.isSome = true → Offends labelled field t [] .missingParameter
  /-- The first token after the operands its mnemonic takes (R144). -/
  | surplus {field ops later : List Token} {m t : Token} {k : Mnemonic} : field.length = labelled.toNat →
      lookupMnemonic m.text = some k → ops.length = k.operandKind.isSome.toNat →
      Offends labelled (field ++ m :: ops) t later .syntaxError

end Sys2Proof.Asm
end

