-- ==== Sys2Proof/Certificates/Slice0/Obligations.lean ====
section
/-! DEFINITION. The statements for the provers, from the numbered rules of spec/. `Memory.read` reads one word, the
smallest unit of memory (R46). -/

open Sys2Proof Sys2Proof.Machine

-- Encoding (spec/30_encoding.md)

/-- R65: bits 11–9 alone select the instruction; opcodes 0–4 carry bits 8–0, zero-extended, as their address. -/
def Obligations.OpcodeFieldSelectsInstruction : Prop :=
  ∀ w : Word,
    (w.toNat / 512 = 0 → ∃ a, decode w = .store a ∧ a.toNat = w.toNat % 512) ∧
    (w.toNat / 512 = 1 → ∃ a, decode w = .load a ∧ a.toNat = w.toNat % 512) ∧
    (w.toNat / 512 = 2 → ∃ a, decode w = .add a ∧ a.toNat = w.toNat % 512) ∧
    (w.toNat / 512 = 3 → ∃ a, decode w = .branch a ∧ a.toNat = w.toNat % 512) ∧
    (w.toNat / 512 = 4 → ∃ a, decode w = .branchIfZero a ∧ a.toNat = w.toNat % 512) ∧
    (w.toNat / 512 = 5 → decode w = .clear) ∧
    (w.toNat / 512 = 6 → decode w = .decrease) ∧
    (w.toNat / 512 = 7 → decode w = .halt)

/-- R63, R64: the word of every instruction; an operand of 512 or more is reduced modulo 512. -/
def Obligations.EncodedWordIsOpcodeAndLowNineBits : Prop :=
  (∀ a : Address,
    (encode (.store a)).toNat = (0 <<< 9) ||| (a.toNat &&& 0o777) ∧
    (encode (.load a)).toNat = (1 <<< 9) ||| (a.toNat &&& 0o777) ∧
    (encode (.add a)).toNat = (2 <<< 9) ||| (a.toNat &&& 0o777) ∧
    (encode (.branch a)).toNat = (3 <<< 9) ||| (a.toNat &&& 0o777) ∧
    (encode (.branchIfZero a)).toNat = (4 <<< 9) ||| (a.toNat &&& 0o777) ∧
    (a.toNat &&& 0o777) = a.toNat % 512) ∧
  (encode .clear).toNat = 5 <<< 9 ∧ (encode .decrease).toNat = 6 <<< 9 ∧ (encode .halt).toNat = 7 <<< 9

/-- Both round-trip laws of R67, where the first fails and what it gives there, and how many words there are of each kind.
R67 is the spec's own inference (it corrects the source's "For every 12-bit pattern", 90_conflicts.md C1). -/
def Obligations.RoundTripHoldsOnCanonicalWords : Prop :=
  (∀ i : Instr, i.wf = true → decode (encode i) = i) ∧
  (∀ w : Word, encode (decode w) = w ↔ canonical w = true) ∧
  (∀ w : Word, canonical w = false → encode (decode w) = w &&& 0xE00#12) ∧
  (∀ w : Word, canonical w = true ↔ w.toNat < 2560 ∨ w = 0xA00#12 ∨ w = 0xC00#12 ∨ w = 0xE00#12) ∧
  ((List.range 4096).filter fun n => !canonical (BitVec.ofNat 12 n)).length = 1533

/-- What the encoding drops of an address (bits 11–9, R63) no instruction's effect depends on (R41). That `exec` takes an
address of 512 or more at all is the model's choice (log entry 2: DESIGN CHOICE, safe). -/
def Obligations.EncodingKeepsEffect : Prop :=
  ∀ (i : Instr) (s : State), exec (decode (encode i)) s = exec i s

/-- The encoding vectors E1–E9 and E14 of spec/95_test_vectors.md section 2 and the words of the opcodes they leave out,
the decoded ones written out bit by bit. That E9's words 0xA01 and 0xBFF are Clears is the spec's decision D8 (log entry 9:
DEDUCED, unsafe). -/
def Obligations.WrittenOutWordsDecode : Prop :=
  decode 0b000000000000#12 = .store 0 ∧ decode 0b000111111111#12 = .store 511 ∧
  encode (.store 0) = 0b000000000000#12 ∧ encode (.store 511) = 0b000111111111#12 ∧ encode (.load 5) = 0b001000000101#12 ∧
  decode 0b001000000101#12 = .load 5 ∧ decode 0b010000000110#12 = .add 6 ∧
  decode 0b011000000000#12 = .branch 0 ∧ decode 0b100111111111#12 = .branchIfZero 511 ∧
  decode 0b101000000000#12 = .clear ∧ decode 0b101000000001#12 = .clear ∧ decode 0b101111111111#12 = .clear ∧
  decode 0b110000000000#12 = .decrease ∧ decode 0b111000000000#12 = .halt ∧
  encode (.load 600) = 0x258#12 ∧ encode (.load 4095) = 0x3FF#12 ∧ encode (.load 3584) = 0x200#12 ∧
  encode .clear = 0xA00#12 ∧ encode .decrease = 0xC00#12 ∧ encode .halt = 0xE00#12

-- The step (spec/40_step_cycle.md)

/-- R81, R82: a step puts the word at `PC & 0x1FF` into `IR`, changing nothing else, and runs the instruction that word
decodes to; when the word is a well-formed instruction's, it runs that instruction. -/
def Obligations.StepRunsDecodedInstruction : Prop :=
  ∀ s : State,
    step s = exec (decode (s.mem.read (BitVec.ofNat 9 (s.pc.toNat % 512))))
      { s with ir := s.mem.read (BitVec.ofNat 9 (s.pc.toNat % 512)) } ∧
    ∀ i : Instr, i.wf = true → s.mem.read (BitVec.ofNat 9 (s.pc.toNat % 512)) = encode i →
      step s = exec i { s with ir := encode i }

/-- R87, which the spec marks as derived (from R81–R86): the step is the spec's whole-step function, transcribed over
natural numbers in Machine/Reference.lean, which is the model's own (log entry 11: DESIGN CHOICE, safe). Of the spec's own
decisions it follows D3 (log entry 3: DESIGN CHOICE, safe) and D4 (log entry 9: DEDUCED, unsafe) in Store's history, and
D8 (log entry 9: DEDUCED, unsafe) in the words of opcodes 5–7 with bits 8–0 not zero. -/
def Obligations.StepRefinesReferenceStep : Prop :=
  ∀ s : State, s.mem.wf = true →
    ∃ t r, stepReporting s = .next (t, r) ∧
      Reference.step Config.historyDepth (Reference.ofState s) = (Reference.ofState t, r)

/-- The engine raises no exception (R200) and its step is a total function (R12): a step always answers a next state, whose `IR` is the raw word fetched, and so does every
instruction. -/
def Obligations.EveryStepAnswers : Prop :=
  (∀ s : State, ∃ t, step s = .next t ∧ t.ir = s.mem.read (BitVec.ofNat 9 (s.pc.toNat % 512))) ∧
  ∀ (i : Instr) (s : State), ∃ t, exec i s = .next t ∧ t.ir = s.ir

/-- R86: a step reports `Halted` exactly when its instruction is Halt, and `Continue` otherwise. -/
def Obligations.HaltedReportedExactlyForHalt : Prop :=
  ∀ s : State, ∃ t r, stepReporting s = .next (t, r) ∧ step s = .next t ∧
    (decode (s.mem.read (BitVec.ofNat 9 (s.pc.toNat % 512))) = .halt → r = .halted) ∧
    (decode (s.mem.read (BitVec.ofNat 9 (s.pc.toNat % 512))) ≠ .halt → r = .continue)

/-- R88, which the spec marks as derived (D7: no halted latch): a step on a Halt word changes nothing but `IR` and reports `Halted`; the step after a halted one repeats it. -/
def Obligations.HaltedStepRepeats : Prop :=
  (∀ s : State, decode s.fetchWord = .halt →
    stepReporting s = .next ({ s with ir := s.fetchWord }, .halted)) ∧
  ∀ s t : State, stepReporting s = .next (t, .halted) → stepReporting t = .next (t, .halted)

/-- R89: a run ends at its first `Halted` step, at one place only. That every further step leaves its end state as it is
is R88, which the spec marks as derived, with its decision D7 (log entry 5: DEDUCED, unsafe for a claim on a step after a
Halt). -/
def Obligations.HaltedRunKeepsEndState : Prop :=
  ∀ (n : Nat) (s t : State), HaltsAfter n s t →
    (∀ k, stepMany (n + 1 + k) s = .next t) ∧ ∀ m u, HaltsAfter m s u → m = n ∧ u = t

/-- R24, which the spec marks as derived: `PC` takes a value of 512 or more only through the increment (a Halt leaves it as it was). -/
def Obligations.PcAbove511OnlyByIncrement : Prop :=
  ∀ s t : State, step s = .next t → 512 ≤ t.pc.toNat →
    t.pc.toNat = s.pc.toNat + 1 ∨ t.pc = s.pc ∧ decode s.fetchWord = .halt

/-- A consequence of R81 and R85: bits 11–9 of `PC` are carried along and never matter: states that differ only there stay so, step for step,
and report the same. -/
def Obligations.HighPcBitsNeverMatter : Prop :=
  ∀ (n : Nat) (s : State) (p : Word), p.toNat % 512 = s.pc.toNat % 512 →
    ∃ t p', stepMany n s = .next t ∧ stepMany n { s with pc := p } = .next { t with pc := p' } ∧
      p'.toNat % 512 = t.pc.toNat % 512 ∧ stepResult { t with pc := p' } = stepResult t

/-- R14, R33: no rule of execution reads `HIST`: with any other history every run goes the same way. -/
def Obligations.HistoryNeverRead : Prop :=
  ∀ (n : Nat) (s : State) (h : List Index),
    ∃ t h', stepMany n s = .next t ∧ stepMany n { s with hist := h } = .next { t with hist := h' } ∧
      stepResult { t with hist := h' } = stepResult t

/-- R44, R45: the one memory word a step can change is the one its Store names, and it becomes `ACC`. -/
def Obligations.OnlyStoreChangesMemory : Prop :=
  ∀ (s t : State) (j : Index), s.mem.wf = true → step s = .next t → t.mem.read j ≠ s.mem.read j →
    ∃ a, decode s.fetchWord = .store a ∧ effectiveIndex a = j ∧ t.mem.read j = s.acc

/-- R21, R31: in one step, `ACC` is written only by Load, Add, Clear and Decrease, and `HIST` only by Store. -/
def Obligations.AccumulatorAndHistoryWriters : Prop :=
  ∀ s t : State, step s = .next t →
    (t.acc ≠ s.acc →
      (∃ a, decode s.fetchWord = .load a) ∨ (∃ a, decode s.fetchWord = .add a) ∨
        decode s.fetchWord = .clear ∨ decode s.fetchWord = .decrease) ∧
    (t.hist ≠ s.hist → ∃ a, decode s.fetchWord = .store a)

/-- R44: a step makes the fetch read, then at most one operand read or one write, never both; its writes alone make the
new memory, and what it leaves elsewhere depends on no word it does not read. -/
def Obligations.StepAccessesMemoryAsListed : Prop :=
  ∀ s : State, ∃ t rest, step s = .next t ∧ stepAccesses s = .read s.fetchIndex s.fetchWord :: rest ∧
    (rest = [] ∨ (∃ i, rest = [.read i (s.mem.read i)]) ∨ ∃ i, rest = [.write i s.acc]) ∧
    t.mem = (stepAccesses s).foldl Memory.apply s.mem ∧
    ∀ m : Memory, (∀ i w, Access.read i w ∈ stepAccesses s → m.read i = w) →
      ∃ t', step { s with mem := m } = .next t' ∧
        t'.acc = t.acc ∧ t'.pc = t.pc ∧ t'.ir = t.ir ∧ t'.hist = t.hist ∧
        stepAccesses { s with mem := m } = stepAccesses s

/-- R53, which the spec marks as derived: a Store is seen by the next fetch of its index, wherever the program counter then comes from; and the Store that
writes its own index was not changed by it. -/
def Obligations.StoreSeenByNextFetch : Prop :=
  ∀ (s t : State) (a : Address), s.mem.wf = true → decode s.fetchWord = .store a → step s = .next t →
    t.ir = s.fetchWord ∧
    ∀ p : Word, BitVec.ofNat 9 (p.toNat % 512) = effectiveIndex a →
      step { t with pc := p } = exec (decode s.acc) { t with pc := p, ir := s.acc }

-- Memory access (spec/41_load_store.md)

/-- R100: Store's effect and frame. That an address already in the history is pushed again is the spec's decision D4 (log
entry 9: DEDUCED, unsafe), and the depth is OPEN (D3, log entry 3: DESIGN CHOICE, safe). -/
def Obligations.StoreWritesAccumulator : Prop :=
  ∀ (a : Address) (s : State), s.mem.wf = true →
    ∃ t, exec (.store a) s = .next t ∧
      t.mem.read (effectiveIndex a) = s.acc ∧
      (∀ j, j ≠ effectiveIndex a → t.mem.read j = s.mem.read j) ∧
      t.hist = (effectiveIndex a :: s.hist).take Config.historyDepth ∧
      t.acc = s.acc ∧ t.ir = s.ir ∧ t.pc.toNat = (s.pc.toNat + 1) % 4096

/-- R101: Load's effect and frame; `Z` follows the word loaded. -/
def Obligations.LoadCopiesMemoryWord : Prop :=
  ∀ (a : Address) (s : State),
    ∃ t, exec (.load a) s = .next t ∧
      t.acc = s.mem.read (BitVec.ofNat 9 (a.toNat % 512)) ∧
      (t.zero = true ↔ s.mem.read (BitVec.ofNat 9 (a.toNat % 512)) = 0) ∧
      t.pc.toNat = (s.pc.toNat + 1) % 4096 ∧
      (∀ j, t.mem.read j = s.mem.read j) ∧ t.ir = s.ir ∧ t.hist = s.hist

-- Arithmetic (spec/42_arithmetic.md)

/-- R110: Add's effect and frame; `Z` is true exactly when the sum is 0 or 4096. -/
def Obligations.AddWrapsModulo4096 : Prop :=
  ∀ (a : Address) (s : State),
    ∃ t, exec (.add a) s = .next t ∧
      t.acc.toNat = (s.acc.toNat + (s.mem.read (BitVec.ofNat 9 (a.toNat % 512))).toNat) % 4096 ∧
      (t.zero = true ↔
        s.acc.toNat + (s.mem.read (BitVec.ofNat 9 (a.toNat % 512))).toNat = 0 ∨
        s.acc.toNat + (s.mem.read (BitVec.ofNat 9 (a.toNat % 512))).toNat = 4096) ∧
      t.pc.toNat = (s.pc.toNat + 1) % 4096 ∧
      (∀ j, t.mem.read j = s.mem.read j) ∧ t.ir = s.ir ∧ t.hist = s.hist

/-- R111: Clear's effect and frame. That its bits 8–0 are ignored is the spec's decision D8 (log entry 9: DEDUCED,
unsafe). -/
def Obligations.ClearZeroesAccumulator : Prop :=
  (∀ s : State,
    ∃ t, exec .clear s = .next t ∧ t.acc = 0 ∧ t.zero = true ∧
      t.pc.toNat = (s.pc.toNat + 1) % 4096 ∧
      (∀ j, t.mem.read j = s.mem.read j) ∧ t.ir = s.ir ∧ t.hist = s.hist) ∧
  ∀ w : Word, 0xA00 ≤ w.toNat → w.toNat ≤ 0xBFF → decode w = .clear

/-- R112: Decrease's effect and frame; `Z` becomes true exactly when the old `ACC` was 1. That its bits 8–0 are ignored is
the spec's decision D8 (log entry 9: DEDUCED, unsafe). -/
def Obligations.DecreaseWrapsModulo4096 : Prop :=
  (∀ s : State,
    ∃ t, exec .decrease s = .next t ∧ t.acc.toNat = (s.acc.toNat + 4095) % 4096 ∧
      (t.zero = true ↔ s.acc.toNat = 1) ∧
      t.pc.toNat = (s.pc.toNat + 1) % 4096 ∧
      (∀ j, t.mem.read j = s.mem.read j) ∧ t.ir = s.ir ∧ t.hist = s.hist) ∧
  ∀ w : Word, 0xC00 ≤ w.toNat → w.toNat ≤ 0xDFF → decode w = .decrease

-- Control (spec/43_control.md)

/-- R120: Branch loads the zero-extended 9-bit target and changes nothing else. -/
def Obligations.BranchLoadsTarget : Prop :=
  ∀ (a : Address) (s : State),
    ∃ t, exec (.branch a) s = .next t ∧ t.pc.toNat = a.toNat % 512 ∧
      t.acc = s.acc ∧ t.ir = s.ir ∧ t.hist = s.hist ∧ ∀ j, t.mem.read j = s.mem.read j

/-- R121: BranchIfZero jumps iff all of `ACC` is zero, else increments, and changes nothing else. -/
def Obligations.BranchIfZeroTestsAccumulator : Prop :=
  ∀ (a : Address) (s : State),
    ∃ t, exec (.branchIfZero a) s = .next t ∧
      (s.acc.toNat = 0 → t.pc.toNat = a.toNat % 512) ∧
      (s.acc.toNat ≠ 0 → t.pc.toNat = (s.pc.toNat + 1) % 4096) ∧
      t.acc = s.acc ∧ t.ir = s.ir ∧ t.hist = s.hist ∧ ∀ j, t.mem.read j = s.mem.read j

/-- R122: Halt leaves `PC` on itself and all state as it is, its step reports `Halted`, and no other word's step does.
That every word `0xE01`–`0xFFF` is a Halt is the spec's decision D8 (log entry 9: DEDUCED, unsafe), and that the step
after a Halt repeats it is R88, with its decision D7 (log entry 5: DEDUCED, unsafe for a claim on a step after a Halt). -/
def Obligations.HaltLeavesPcAndReports : Prop :=
  (∀ s : State, exec .halt s = .next s) ∧
  (∀ s : State, 0xE00 ≤ s.fetchWord.toNat →
    stepReporting s = .next ({ s with ir := s.fetchWord }, .halted) ∧
    stepReporting { s with ir := s.fetchWord } = .next ({ s with ir := s.fetchWord }, .halted)) ∧
  ∀ s : State, s.fetchWord.toNat < 0xE00 → ∃ t, stepReporting s = .next (t, .continue)

-- State, reset and transactions (spec/10_state.md, spec/70_reset_and_hazards.md)

/-- Every step keeps the memory canonical and the history at most `HISTORY_DEPTH` long (R31). -/
def Obligations.StepKeepsMemoryAndHistoryForm : Prop :=
  ∀ s t : State, s.Inv → step s = .next t → t.Inv

/-- The state after reset meets that invariant, with the registers zero (R220) and memory zero (R35). That the history is
empty at power-on is the spec's decision D5 (log entry 4: DESIGN CHOICE, safe), and `reset_registers` leaves it (R220). -/
def Obligations.ResetStateMeetsForm : Prop :=
  State.reset.Inv ∧ State.reset.acc = 0 ∧ State.reset.pc = 0 ∧ State.reset.ir = 0 ∧
    State.reset.hist = [] ∧ ∀ j, State.reset.mem.read j = 0

/-- Every transaction of the caller, with any argument, keeps the invariant of the engine's state. -/
def Obligations.TransactionsKeepMemoryAndHistoryForm : Prop :=
  ∀ (b c : Block) (x : Transaction) (r : Reply), b.core.Inv → transact b x = .next (c, r) → c.core.Inv

/-- The canonical form is one form: memories in it with the same 512 words are equal, and the canonical list of a memory
in it is that memory. -/
def Obligations.CanonicalMemoryIsUnique : Prop :=
  (∀ m n : Memory, m.wf = true → n.wf = true → (∀ j, m.read j = n.read j) → m = n) ∧
  ∀ m : Memory, m.wf = true → m.canonical = m

/-- `reset_registers` zeroes `ACC`, `PC` and `IR` and leaves `MEM` and `HIST` (R220). Then (R221, which the spec marks as
derived) `Z` is true and the next step runs the word at index 0. -/
def Obligations.ResetRegistersZeroesThree : Prop :=
  ∀ b : Block,
    ∃ c, transact b .resetRegisters = .next (c, .nothing) ∧
      c.core.acc = 0 ∧ c.core.pc = 0 ∧ c.core.ir = 0 ∧
      c.core.mem = b.core.mem ∧ c.core.hist = b.core.hist ∧ c.core.zero = true ∧
      step c.core = exec (decode (b.core.mem.read 0)) { c.core with ir := b.core.mem.read 0 }

/-- `set_memory` replaces all 512 words and empties `HIST` (R222); that it leaves the registers is the spec's decision D6. -/
def Obligations.SetMemoryReplacesAllWords : Prop :=
  ∀ (b : Block) (image : Memory),
    ∃ c, transact b (.setMemory image) = .next (c, .nothing) ∧
      (∀ j, c.core.mem.read j = image.read j) ∧ c.core.mem.wf = true ∧ c.core.hist = [] ∧
      c.core.acc = b.core.acc ∧ c.core.pc = b.core.pc ∧ c.core.ir = b.core.ir

/-- R35 and the spec's decision D5 (log entry 4: DESIGN CHOICE, safe): at power-on memory is zero, the history empty and
the registers not reset, and `reset_registers` leaves the reset state. A block whose registers were not reset refuses
every step; only `reset_registers` makes them count as reset, and nothing undoes it; from then on a step answers what
the engine's step does and reports. -/
def Obligations.PowerOnNeedsResetRegisters : Prop :=
  (∀ j, Block.powerOn.core.mem.read j = 0) ∧ Block.powerOn.core.hist = [] ∧ Block.powerOn.registersReset = false ∧
  transact Block.powerOn .resetRegisters = .next ({ core := State.reset, registersReset := true }, .nothing) ∧
  (∀ b : Block, b.registersReset = false → transact b .step = .refused .registersNotReset) ∧
  (∀ (b c : Block) (x : Transaction) (r : Reply), transact b x = .next (c, r) →
    (c.registersReset = true ↔ b.registersReset = true ∨ x = .resetRegisters)) ∧
  ∀ b : Block, b.registersReset = true →
    ∃ t r, stepReporting b.core = .next (t, r) ∧ transact b .step = .next ({ core := t, registersReset := true }, .stepped r)

/-- The boot order of R223, the spec's decision D24: after `assemble`, `set_memory` and `reset_registers`, the last two in either order, the next step runs word 0
of the image with `ACC` zero and an empty history. -/
def Obligations.BootRunsWordZeroOfImage : Prop :=
  ∀ (b : Block) (src : Asm.Source) (image : Memory), Asm.assemble src = .ok image →
    ∃ c d e : Block,
      transact b (.assemble src) = .next (b, .image image) ∧
      transact b (.setMemory image) = .next (c, .nothing) ∧
      transact c .resetRegisters = .next (d, .nothing) ∧
      transact b .resetRegisters = .next (e, .nothing) ∧
      transact e (.setMemory image) = .next (d, .nothing) ∧
      ∃ t r, step d.core = .next t ∧ transact d .step = .next ({ d with core := t }, .stepped r) ∧
        exec (decode (image.read 0)) { acc := 0, pc := 0, ir := image.read 0, mem := image, hist := [] } = .next t

/-- The readouts return the 512 words (R30) and the history (R32) and change nothing; that there is a register readout,
which does so too, is the spec's decision D1 (R34). -/
def Obligations.ReadoutsChangeNothing : Prop :=
  ∀ b : Block,
    transact b .memory = .next (b, .memory b.core.mem) ∧
    b.core.mem.words.length = 512 ∧ (∀ j : Index, b.core.mem.words[j.toNat]? = some (b.core.mem.read j)) ∧
    transact b .lastModifications = .next (b, .history b.core.hist) ∧
    ∃ z, transact b .registers =
        .next (b, .registers { acc := b.core.acc, pc := b.core.pc, ir := b.core.ir, zero := z }) ∧
      (z = true ↔ b.core.acc.toNat = 0)

/-- R201: `assemble`, failing or not, reads and writes none of the engine's state. -/
def Obligations.AssembleTouchesNoState : Prop :=
  ∀ (b c : Block) (src : Asm.Source),
    ∃ reply, transact b (.assemble src) = .next (b, reply) ∧ transact c (.assemble src) = .next (c, reply)

-- Label resolution and encoding (spec/45_asm_passes.md)

/-- R163: the location counter after each command. -/
def Obligations.CounterAdvancesByCommand : Prop :=
  ∀ c : Address,
    (∀ a, Asm.advance c (some (.dir (.org a))) = a) ∧
    (∀ n, (Asm.advance c (some (.dir (.reserve n)))).toNat = (c.toNat + n.toNat) % 4096) ∧
    (∀ op d, (Asm.advance c (some (.addressed op d))).toNat = (c.toNat + 1) % 4096) ∧
    (∀ op, (Asm.advance c (some (.plain op))).toNat = (c.toNat + 1) % 4096) ∧
    (∀ v, (Asm.advance c (some (.dir (.data v)))).toNat = (c.toNat + 1) % 4096) ∧
    Asm.advance c (some (.dir .endOfProgram)) = c ∧ Asm.advance c none = c

/-- R162; the failure's having no position is the model's (log entry 15: DESIGN CHOICE, unsafe for a claim about it), that
lines after an `end` count is the spec's resolution C5 (R164), and that the first error is the one reported
its decision D22: pass 1 succeeds exactly when no label is defined twice anywhere in the source, and otherwise reports the
first label that is. -/
def Obligations.PassOneRejectsFirstRedefinition : Prop :=
  ∀ lines : List Asm.Line,
    ((Asm.labelsOf lines).Nodup → ∃ table, Asm.pass1 [] 0 lines = .ok table) ∧
    ∀ (before after : List Asm.Line) (ln : Asm.Line) (n : Asm.LabelName),
      lines = before ++ ln :: after → ln.label = some n → n ∈ Asm.labelsOf before → (Asm.labelsOf before).Nodup →
      Asm.pass1 [] 0 lines = .error { error := .redefinedLabel n, rest := none }

/-- R162, R170: a label is bound to the full 12-bit counter as it is before its own line's advance. -/
def Obligations.LabelBoundToCounterBeforeItsLine : Prop :=
  ∀ (before after : List Asm.Line) (ln : Asm.Line) (n : Asm.LabelName) (table : Asm.Table),
    ln.label = some n → Asm.pass1 [] 0 (before ++ ln :: after) = .ok table →
    table.find n = some (Asm.counterAfter 0 before)

/-- R172: pass 2 stops at an `end`: the lines after it place nothing and raise nothing. -/
def Obligations.LinesAfterEndIgnoredByPassTwo : Prop :=
  ∀ (table : Asm.Table) (image : Memory) (counter : Address) (before after : List Asm.Line) (ln : Asm.Line),
    ln.cmd = some (.dir .endOfProgram) →
    Asm.pass2 table image counter (before ++ ln :: after) = Asm.pass2 table image counter before

/-- A form of R177's forward-reference independence: where a label stands relative to its references does not matter: every label operand assembles as the
Address pass 1 bound it to. -/
def Obligations.ReferencesAssembleAsBoundAddresses : Prop :=
  ∀ (lines : List Asm.Line) (table : Asm.Table) (image : Memory),
    Asm.pass1 [] 0 lines = .ok table → Asm.assembleLines lines = .ok image →
    Asm.assembleLines (lines.map (Asm.Line.withLiterals table)) = .ok image

/-- R168, with the spec's decision D22 on the error reported (R175); the failure's having no position is the model's (log
entry 15: DESIGN CHOICE, unsafe for a claim about it): pass 2 fails exactly with the first undefined label referenced before the first `end`. -/
def Obligations.PassTwoRejectsFirstUndefinedLabel : Prop :=
  ∀ (table : Asm.Table) (image : Memory) (counter : Address) (lines : List Asm.Line) (f : Asm.Failure),
    Asm.pass2 table image counter lines = .error f ↔
      ∃ before op n lbl after, lines = before ++ { label := lbl, cmd := some (.addressed op (.sym n)) } :: after ∧
        Asm.hasEnd before = false ∧ table.find n = none ∧ f = { error := .undefinedLabel n, rest := none } ∧
        ∃ image', Asm.pass2 table image counter before = .ok image'

/-- R166–R168 and R171, with the spec's decision D23 that the later line wins (R173): a word of the image is the one the last line to write its index places there, and is zero
where no line before the first `end` writes. -/
def Obligations.ImageHoldsLastWordPlaced : Prop :=
  ∀ (table : Asm.Table) (lines : List Asm.Line) (image : Memory), Asm.pass2 table [] 0 lines = .ok image →
    (∀ j, Asm.writesIndex j 0 lines = false → image.read j = 0) ∧
    ∀ (before after : List Asm.Line) (ln : Asm.Line) (w : Word),
      lines = before ++ ln :: after → Asm.hasEnd before = false → Asm.emit table ln.cmd = .ok (some w) →
      Asm.writesIndex (indexOf (Asm.counterAfter 0 before)) (Asm.counterAfter 0 (before ++ [ln])) after = false →
      image.read (indexOf (Asm.counterAfter 0 before)) = w

/-- The words pass 2 places for instructions and data (R167, R168, with the encodings of R63 and R64), whatever the table;
the one for a label needs the table to bind it. -/
def Obligations.LinesPlaceTheirEncodings : Prop :=
  ∀ (table : Asm.Table) (n : Asm.LabelName) (x a v : Address) (op : Asm.AddressedOp) (p : Asm.PlainOp),
    Asm.emit table (some (.addressed op (.lit a))) = .ok (some (encode (op.toInstr a))) ∧
    (table.find n = some x →
      Asm.emit table (some (.addressed op (.sym n))) = .ok (some (encode (op.toInstr x)))) ∧
    Asm.emit table (some (.plain p)) = .ok (some (encode p.toInstr)) ∧
    Asm.emit table (some (.dir (.data v))) = .ok (some v)

/-- R166 in the model's form: every image `assemble` returns is a memory in canonical form. -/
def Obligations.AssembledImageIsCanonical : Prop :=
  ∀ (src : Asm.Source) (image : Memory), Asm.assemble src = .ok image → image.wf = true

-- The parser (spec/44_asm_parser.md)

/-- The parser reads back every list of lines from its spelling in the grammar of R133 and R139; the printer is the
model's own (log entry 11: DESIGN CHOICE, safe), and `st`, `clr`, `dec`, the label's colon and leading zeros are the spec's decisions
D12, D13 and D16. -/
def Obligations.ParserReadsPrintedLines : Prop :=
  ∀ lines : List Asm.Line, lines.all Asm.Line.spellable = true → Asm.parse (Asm.printLines lines) = .ok lines

/-- R147, which the spec marks as derived: the source's example parses to five lines. -/
def Obligations.SourceExampleParses : Prop :=
  Asm.parse "loop: ld /5\n add /6\n bz /done\n br /loop\ndone: halt".toList =
    .ok [{ label := some "loop".toList, cmd := some (.addressed .load (.lit 5)) },
         { label := none, cmd := some (.addressed .add (.lit 6)) },
         { label := none, cmd := some (.addressed .branchIfZero (.sym "done".toList)) },
         { label := none, cmd := some (.addressed .branch (.sym "loop".toList)) },
         { label := some "done".toList, cmd := some (.plain .halt) }]

/-- R132: a comment ends the token before it and runs to the end of its line: on any line of the source, the last one
with or without a newline after it, behind any text that makes the line a line (here one character at least, R131), it
changes neither whether the source parses nor the lines it parses to. -/
def Obligations.CommentTextIgnored : Prop :=
  ∀ (front : Asm.Source) (c : Char) (text comment back : Asm.Source),
    (front = [] ∨ front.getLast? = some '\n') → c ≠ '\n' → '\n' ∉ text → '\n' ∉ comment →
    (back = [] ∨ back.head? = some '\n') →
    (Asm.lexLine none (c :: text ++ ';' :: comment)).map (·.text) = (Asm.lexLine none (c :: text)).map (·.text) ∧
    (Asm.parse (front ++ (c :: text ++ ';' :: comment ++ back))).toOption =
      (Asm.parse (front ++ (c :: text ++ back))).toOption

/-- R135, the spec's decisions D13 and D15: a label field is a name with at most one `:` after it; anything else is
`InvalidLabelName`. That the failure carries the source from the label field on is R146, the spec's decision D22 (log
entry 14: DEDUCED, unsafe). -/
def Obligations.LabelFieldIsNameWithOptionalColon : Prop :=
  ∀ (t : Asm.Token),
    (∀ n, Asm.parseLabel t = .ok n ↔ Asm.isName n = true ∧ (t.text = n ∨ t.text = n ++ [':'])) ∧
    ((¬ ∃ n, Asm.isName n = true ∧ (t.text = n ∨ t.text = n ++ [':'])) →
      Asm.parseLabel t = .error { error := .invalidLabelName, rest := some t.rest })

/-- A mnemonic is read in any case through a fixed table (R137), here with the nine of its rows that the source shows
(R138); an unknown one fails with its name as written. That the failure carries the source from the mnemonic on is R146,
the spec's decision D22 (log entry 14: DEDUCED, unsafe). -/
def Obligations.MnemonicsIgnoreCase : Prop :=
  (["ld", "add", "br", "bz", "halt", "org", "data", "res", "end"].map fun m => Asm.lookupMnemonic m.toList) =
    [some (.addressed .load), some (.addressed .add), some (.addressed .branch), some (.addressed .branchIfZero),
     some (.plain .halt), some .org, some .data, some .reserve, some .endOfProgram] ∧
  (∀ (m m' : Asm.Token) (ops : List Asm.Token) (k : Asm.Mnemonic), m.text.map Asm.lowerChar = m'.text.map Asm.lowerChar →
    Asm.lookupMnemonic m.text = some k →
    Asm.parseCommand (m' :: ops) = (Asm.parseMnemonic m' ops k).map some) ∧
  ∀ (m : Asm.Token) (ops : List Asm.Token), (∀ k, (m.text.map Asm.lowerChar, k) ∉ Asm.mnemonicTable) →
    Asm.parseCommand (m :: ops) = .error { error := .invalidInstruction m.text, rest := some m.rest }

/-- R140, the spec's decision D16: a digit string up to 4095 is a literal in each of the three forms, its value N when
bare or after a slash and (R141, with D17 at N = 0) `(4096 − N) mod 4096` in the slash-minus form; a larger one is
`InvalidNumber` in each, carrying the source from its token on (D22; log entry 14: DEDUCED, unsafe). -/
def Obligations.LiteralsRangeTo4095 : Prop :=
  ∀ (digits : List Char) (rest : Asm.Source), Asm.isDigits digits = true →
    (Asm.decimalValue digits ≤ 4095 →
      Asm.classify { text := digits, rest := rest } = .ok (.number (BitVec.ofNat 12 (Asm.decimalValue digits))) ∧
      Asm.classify { text := '/' :: digits, rest := rest } =
        .ok (.address (BitVec.ofNat 12 (Asm.decimalValue digits))) ∧
      Asm.classify { text := '/' :: '-' :: digits, rest := rest } =
        .ok (.address (BitVec.ofNat 12 ((4096 - Asm.decimalValue digits) % 4096)))) ∧
    (4095 < Asm.decimalValue digits →
      Asm.classify { text := digits, rest := rest } = .error { error := .invalidNumber, rest := some rest } ∧
      Asm.classify { text := '/' :: digits, rest := rest } = .error { error := .invalidNumber, rest := some rest } ∧
      Asm.classify { text := '/' :: '-' :: digits, rest := rest } =
        .error { error := .invalidNumber, rest := some rest })

/-- R141 (its value at N = 0 is the spec's decision D17): the slash-minus form with number N is the Address `(4096 − N) mod 4096`, and for 1 ≤ N ≤ 512 it names word 512 − N. -/
def Obligations.SlashMinusIsDistanceFrom4096 : Prop :=
  ∀ (digits : List Char) (rest : Asm.Source), Asm.isDigits digits = true → Asm.decimalValue digits ≤ 4095 →
    ∃ a : Address, Asm.classify { text := '/' :: '-' :: digits, rest := rest } = .ok (.address a) ∧
      a.toNat = (4096 - Asm.decimalValue digits) % 4096 ∧
      (1 ≤ Asm.decimalValue digits → Asm.decimalValue digits ≤ 512 →
        (indexOf a).toNat = 512 - Asm.decimalValue digits)

/-- The failure on no operand (R143). Each mnemonic's operand kind, none for `clr`, `dec`, `halt` and `end`, and the failure
on another kind are the spec's decision D18 (R142), the failure on an operand where none is taken its decision D19 (R144),
the payload of these failures its decision D22 (log entry 14: DEDUCED, unsafe). That a missing operand is reported at the
mnemonic is the model's (log entry 7: DESIGN CHOICE, unsafe), and so is that the operands of a mnemonic that takes none are
checked for their spelling first and never for a kind (log entry 8: DEDUCED, unsafe). Operands after the one a mnemonic
takes are in SurplusTokensRejected, misspelled ones in OperandSpellingsClassified. -/
def Obligations.OperandKindsChecked : Prop :=
  ∀ (m t : Asm.Token) (more : List Asm.Token) (op : Asm.AddressedOp) (p : Asm.PlainOp) (v : Word) (n : Asm.LabelName),
    Asm.parseMnemonic m [] (.plain p) = .ok (.plain p) ∧
    Asm.parseMnemonic m [] .endOfProgram = .ok (.dir .endOfProgram) ∧
    ((∀ u ∈ t :: more, ∃ form, Asm.classify u = .ok form) →
      Asm.parseMnemonic m (t :: more) (.plain p) = .error { error := .syntaxError, rest := some t.rest } ∧
      Asm.parseMnemonic m (t :: more) .endOfProgram = .error { error := .syntaxError, rest := some t.rest }) ∧
    (∀ k : Asm.Mnemonic, k = .addressed op ∨ k = .org ∨ k = .data ∨ k = .reserve →
      Asm.parseMnemonic m [] k = .error { error := .missingParameter, rest := some m.rest }) ∧
    (Asm.classify t = .ok (.number v) →
      Asm.parseMnemonic m [t] .data = .ok (.dir (.data v)) ∧
      Asm.parseMnemonic m [t] .reserve = .ok (.dir (.reserve v)) ∧
      Asm.parseMnemonic m (t :: more) (.addressed op) =
        .error { error := .invalidParameter .direction, rest := some t.rest } ∧
      Asm.parseMnemonic m (t :: more) .org = .error { error := .invalidParameter .address, rest := some t.rest }) ∧
    (Asm.classify t = .ok (.address v) →
      Asm.parseMnemonic m [t] (.addressed op) = .ok (.addressed op (.lit v)) ∧
      Asm.parseMnemonic m [t] .org = .ok (.dir (.org v)) ∧
      Asm.parseMnemonic m (t :: more) .data = .error { error := .invalidParameter .number, rest := some t.rest } ∧
      Asm.parseMnemonic m (t :: more) .reserve = .error { error := .invalidParameter .number, rest := some t.rest }) ∧
    (Asm.classify t = .ok (.label n) →
      Asm.parseMnemonic m [t] (.addressed op) = .ok (.addressed op (.sym n)) ∧
      Asm.parseMnemonic m (t :: more) .org = .error { error := .invalidParameter .address, rest := some t.rest } ∧
      Asm.parseMnemonic m (t :: more) .data = .error { error := .invalidParameter .number, rest := some t.rest } ∧
      Asm.parseMnemonic m (t :: more) .reserve = .error { error := .invalidParameter .number, rest := some t.rest })

/-- R146, the spec's decision D22 (log entry 14: DEDUCED, unsafe; for a missing operand log entry 7: DESIGN CHOICE,
unsafe): a parse failure carries the source from the start of the offending token to the end. It is the failure of the
first line that fails; the token is one of that line's, fails the check that raises the error, and begins where the
carried text does: at a token character with none right before it. -/
def Obligations.ParseFailurePointsIntoSource : Prop :=
  ∀ (src : Asm.Source) (f : Asm.Failure), Asm.parse src = .error f →
    ∃ (linesBefore linesAfter : List Asm.Source) (line : Asm.Source) (earlier later : List Asm.Token) (t : Asm.Token)
        (before : Asm.Source),
      Asm.lineStarts true src = linesBefore ++ line :: linesAfter ∧
      (∀ l ∈ linesBefore, ∃ ln, Asm.parseLine l = .ok ln) ∧ Asm.parseLine line = .error f ∧
      Asm.lexLine none line = earlier ++ t :: later ∧
      Asm.Offends (Asm.hasLabelField line) earlier t later f.error ∧
      f.rest = some t.rest ∧ src = before ++ t.rest ∧
      (∃ c cs, t.rest = c :: cs ∧ Asm.isTokenChar c = true) ∧
      (before = [] ∨ ∃ d, before.getLast? = some d ∧ Asm.isTokenChar d = false)

/-- R176: which stage raises which error. -/
def Obligations.StagesRaiseTheirOwnErrors : Prop :=
  (∀ (src : Asm.Source) (f : Asm.Failure), Asm.parse src = .error f →
    (∀ n, f.error ≠ .redefinedLabel n) ∧ ∀ n, f.error ≠ .undefinedLabel n) ∧
  (∀ (lines : List Asm.Line) (f : Asm.Failure), Asm.pass1 [] 0 lines = .error f → ∃ n, f.error = .redefinedLabel n) ∧
  ∀ (table : Asm.Table) (image : Memory) (counter : Address) (lines : List Asm.Line) (f : Asm.Failure),
    Asm.pass2 table image counter lines = .error f → ∃ n, f.error = .undefinedLabel n

/-- R144, the spec's decision D19: a mnemonic is accepted with exactly as many operands as it takes, and a token after them
fails with `SyntaxError`, carrying the source from that token on (D22; log entry 14: DEDUCED, unsafe). That all tokens
after them are checked for their spelling first, so that the first misspelled one gives its own failure, and none for a
kind, is the model's reading of R145 (log entry 8: DEDUCED, unsafe). -/
def Obligations.SurplusTokensRejected : Prop :=
  ∀ (m : Asm.Token) (k : Asm.Mnemonic) (ops : List Asm.Token) (c : Asm.Command), Asm.parseMnemonic m ops k = .ok c →
    ops.length = k.operandKind.isSome.toNat ∧
    (∀ (t : Asm.Token) (more : List Asm.Token), (∀ u ∈ t :: more, ∃ form, Asm.classify u = .ok form) →
      Asm.parseMnemonic m (ops ++ t :: more) k = .error { error := .syntaxError, rest := some t.rest }) ∧
    ∀ (spelled : List Asm.Token) (t : Asm.Token) (more : List Asm.Token) (f : Asm.Failure),
      (∀ u ∈ spelled, ∃ form, Asm.classify u = .ok form) → Asm.classify t = .error f →
      Asm.parseMnemonic m (ops ++ (spelled ++ t :: more)) k = .error f

/-- R139: a name is a label reference, bare or (the spec's decision D14) after a slash; a token of none of the five
spellings, and no other, fails with `ParseError` (D20), carrying the source from it on (D22; log entry 14: DEDUCED,
unsafe); and the failure of a first operand's spelling is its mnemonic's, whatever follows (R145, D22), for a mnemonic
that takes no operand by the model's reading of R145 (log entry 8: DEDUCED, unsafe). -/
def Obligations.OperandSpellingsClassified : Prop :=
  (∀ (n : Asm.LabelName) (rest : Asm.Source), Asm.isName n = true →
    Asm.classify { text := n, rest := rest } = .ok (.label n) ∧
    Asm.classify { text := '/' :: n, rest := rest } = .ok (.label n)) ∧
  (∀ t : Asm.Token, Asm.classify t = .error { error := .parseError, rest := some t.rest } ↔
    ¬ ∃ body, (Asm.isDigits body = true ∨ Asm.isName body = true) ∧ (t.text = body ∨ t.text = '/' :: body) ∨
      Asm.isDigits body = true ∧ t.text = '/' :: '-' :: body) ∧
  ∀ (m t : Asm.Token) (more : List Asm.Token) (k : Asm.Mnemonic) (f : Asm.Failure), Asm.classify t = .error f →
    Asm.parseMnemonic m (t :: more) k = .error f
end

