-- ==== Sys2Proof/Laws/Memory.lean ====
section
/-! SUPPORT. The laws of memory and of the history: what a write does to every read, and that every operation keeps the
canonical form. -/

namespace Sys2Proof.Machine

/-- No cell is listed below the first key a canonical form allows. -/
theorem Memory.readCell_of_lt {m : Memory} {lo a : Nat} (h : m.wfFrom lo = true) (ha : a < lo) :
    m.readCell a = Memory.unlisted := by
  induction m generalizing lo with
  | nil => rfl
  | cons c m ih =>
    obtain ⟨b, u⟩ := c
    simp only [Memory.wfFrom, Bool.and_eq_true, decide_eq_true_eq] at h
    obtain ⟨⟨⟨h1, -⟩, -⟩, h4⟩ := h
    rw [Memory.readCell, if_neg (by omega)]
    exact ih h4 (by omega)

theorem Memory.wfFrom_mono {m : Memory} {lo lo' : Nat} (h : m.wfFrom lo = true) (hl : lo' ≤ lo) :
    m.wfFrom lo' = true := by
  cases m with
  | nil => rfl
  | cons c m =>
    simp only [Memory.wfFrom, Bool.and_eq_true, decide_eq_true_eq] at h ⊢
    exact ⟨⟨⟨by omega, h.1.1.2⟩, h.1.2⟩, h.2⟩

/-- A write leaves the canonical form canonical. -/
theorem Memory.wfFrom_writeCell {m : Memory} {lo a : Nat} {v : Word} (h : m.wfFrom lo = true) (hl : lo ≤ a)
    (ha : a < 512) : (m.writeCell a v).wfFrom lo = true := by
  induction m generalizing lo with
  | nil =>
    rw [Memory.writeCell]
    split
    · rfl
    · simp_all [Memory.wfFrom]
  | cons c m ih =>
    obtain ⟨b, u⟩ := c
    simp only [Memory.wfFrom, Bool.and_eq_true, decide_eq_true_eq] at h
    obtain ⟨⟨⟨h1, h2⟩, h3⟩, h4⟩ := h
    rw [Memory.writeCell]
    split
    · split
      · simp_all [Memory.wfFrom]
      · simp_all [Memory.wfFrom]
    · split
      · subst a
        split
        · exact Memory.wfFrom_mono h4 (by omega)
        · simp_all [Memory.wfFrom]
      · have := ih h4 (by omega)
        simp_all [Memory.wfFrom]

/-- What a write does to the read of any key: the new word at its own, the old one elsewhere (R43). -/
theorem Memory.readCell_writeCell {m : Memory} {lo a : Nat} {v : Word} (h : m.wfFrom lo = true) (j : Nat) :
    (m.writeCell a v).readCell j = if j = a then v else m.readCell j := by
  induction m generalizing lo with
  | nil =>
    rw [Memory.writeCell]
    split
    · simp_all [Memory.readCell]
    · rfl
  | cons c m ih =>
    obtain ⟨b, u⟩ := c
    simp only [Memory.wfFrom, Bool.and_eq_true, decide_eq_true_eq] at h
    obtain ⟨-, h4⟩ := h
    have hlt : ∀ k, k < b + 1 → Memory.readCell m k = Memory.unlisted := fun k hk => Memory.readCell_of_lt h4 hk
    rw [Memory.writeCell]
    split
    · split
      · rename_i hab hv
        subst hv
        by_cases hj : j = a
        · subst hj
          rw [Memory.readCell, if_neg (by omega), hlt j (by omega), if_pos rfl]
        · rw [if_neg hj]
      · rfl
    · split
      · subst a
        split
        · rename_i hv
          subst hv
          by_cases hj : j = b
          · subst hj
            rw [if_pos rfl, hlt j (by omega)]
          · rw [if_neg hj, Memory.readCell, if_neg hj]
        · simp only [Memory.readCell]
          split <;> simp_all
      · rename_i hab hne
        simp only [Memory.readCell, ih h4]
        by_cases hj : j = b
        · subst hj
          simp [Ne.symm hne]
        · simp [hj]

/-- `MemWrite` then `MemRead` (R42, R43). -/
theorem Memory.read_write {m : Memory} (h : m.wf = true) (i j : Index) (v : Word) :
    (m.write i v).read j = if j = i then v else m.read j := by
  simp only [Memory.read, Memory.write, Memory.readCell_writeCell h, BitVec.toNat_inj]

/-- `MemWrite` keeps the canonical form. -/
theorem Memory.wf_write {m : Memory} (h : m.wf = true) (i : Index) (v : Word) : (m.write i v).wf = true :=
  Memory.wfFrom_writeCell h (Nat.zero_le _) i.isLt

/-- The canonical list of any cells is canonical. -/
theorem Memory.wfFrom_canonicalFrom (m : Memory) (n lo : Nat) (h : lo + n ≤ 512) :
    (m.canonicalFrom n lo).wfFrom lo = true := by
  induction n generalizing lo with
  | zero => rfl
  | succ n ih =>
    have h1 := ih (lo + 1) (by omega)
    rw [Memory.canonicalFrom]
    split
    · exact Memory.wfFrom_mono h1 (by omega)
    · simp_all [Memory.wfFrom]; omega

/-- `Memory.canonical` answers a canonical memory. -/
theorem Memory.wf_canonical (m : Memory) : m.canonical.wf = true := Memory.wfFrom_canonicalFrom m 512 0 (by omega)

theorem Memory.readCell_canonicalFrom (m : Memory) (n lo a : Nat) (h1 : lo ≤ a) (h2 : a < lo + n)
    (hn : lo + n ≤ 512) : (m.canonicalFrom n lo).readCell a = m.readCell a := by
  induction n generalizing lo with
  | zero => omega
  | succ n ih =>
    rw [Memory.canonicalFrom]
    by_cases ha : a = lo
    · subst ha
      split
      · rename_i hu
        rw [hu]
        exact Memory.readCell_of_lt (Memory.wfFrom_canonicalFrom m n (a + 1) (by omega)) (by omega)
      · rw [Memory.readCell, if_pos rfl]
    · have := ih (lo + 1) (by omega) (by omega) (by omega)
      split
      · exact this
      · rw [Memory.readCell, if_neg ha]; exact this

/-- `Memory.canonical` has the same 512 words. -/
@[simp] theorem Memory.read_canonical (m : Memory) (j : Index) : m.canonical.read j = m.read j :=
  Memory.readCell_canonicalFrom m 512 0 j.toNat (Nat.zero_le _) (by have := j.isLt; omega) (by omega)

/-- Power-on memory reads zero everywhere (R29, R35). -/
@[simp] theorem Memory.read_nil (j : Index) : Memory.read [] j = 0 := rfl

/-- `keepNewest` is the spec's `take` (R31). -/
theorem keepNewest_eq_take (h : List Index) (n : Nat) : keepNewest h n = h.take n := by
  induction h generalizing n with
  | nil => simp [keepNewest]
  | cons a h ih => cases n <;> simp [keepNewest, ih]

/-- A history keeps at most the given number of entries (R31). -/
theorem length_keepNewest_le (h : List Index) (n : Nat) : (keepNewest h n).length ≤ n := by
  rw [keepNewest_eq_take]
  exact List.length_take_le n h

end Sys2Proof.Machine
end

