-- ==== Sys2Proof/Laws/Assembler.lean ====
section
/-! SUPPORT. What each stage of the assembler can do: tokens, operand spellings, labels, emitted words and images. -/

namespace Sys2Proof.Asm

section Lexing

theorem isTokenChar_iff {c : Char} : isTokenChar c = true ↔ isSpace c = false ∧ c ≠ ';' ∧ c ≠ '\n' := by
  simp [isTokenChar, and_assoc]

/-- A token character begins a token or joins the one before it (R133). -/
theorem lexLine_tokenChar {c : Char} (h : isTokenChar c = true) (p : Option Token) (cs : Source) :
    lexLine p (c :: cs) = match p with
      | none => lexLine (some { text := [c], rest := c :: cs }) cs
      | some t => lexLine (some { t with text := t.text ++ [c] }) cs := by
  obtain ⟨h1, h2, h3⟩ := isTokenChar_iff.1 h
  cases p <;> simp [lexLine, h1, h2, h3]

theorem lexLine_some_append {ts : List Char} (h : ∀ c ∈ ts, isTokenChar c = true) (t : Token) (cs : Source) :
    lexLine (some t) (ts ++ cs) = lexLine (some { t with text := t.text ++ ts }) cs := by
  induction ts generalizing t with
  | nil => simp
  | cons c ts ih =>
    rw [List.cons_append, lexLine_tokenChar (h c (by simp))]
    simp only
    rw [ih fun x hx => h x (by simp [hx])]
    simp

/-- A run of token characters is one token, from its first character (R133, R146). -/
theorem lexLine_word {c : Char} {ts : List Char} (h : ∀ x ∈ c :: ts, isTokenChar x = true) (cs : Source) :
    lexLine none ((c :: ts) ++ cs) = lexLine (some { text := c :: ts, rest := (c :: ts) ++ cs }) cs := by
  rw [List.cons_append, lexLine_tokenChar (h c (by simp))]
  simp only
  rw [lexLine_some_append fun x hx => h x (by simp [hx])]
  simp

theorem lexLine_space (p : Option Token) (cs : Source) : lexLine p (' ' :: cs) = p.toList ++ lexLine none cs := by
  simp [lexLine, isSpace]

theorem lexLine_newline (p : Option Token) (cs : Source) : lexLine p ('\n' :: cs) = p.toList := by simp [lexLine]

theorem lineStarts_false_append {l : List Char} (h : '\n' ∉ l) (rest : Source) :
    lineStarts false (l ++ '\n' :: rest) = lineStarts true rest := by
  induction l with
  | nil => simp [lineStarts]
  | cons c cs ih =>
    simp only [List.mem_cons, not_or] at h
    simp [lineStarts, Ne.symm h.1, ih h.2]

/-- A line with a character in it, ended by a newline, is one line (R131). -/
theorem lineStarts_true_append {l : List Char} (h : '\n' ∉ l) (hne : l ≠ []) (rest : Source) :
    lineStarts true (l ++ '\n' :: rest) = (l ++ '\n' :: rest) :: lineStarts true rest := by
  cases l with
  | nil => exact absurd rfl hne
  | cons c cs =>
    simp only [List.mem_cons, not_or] at h
    simp [lineStarts, Ne.symm h.1, lineStarts_false_append h.2]

/-- The characters of a name and of a digit string are token characters. -/
theorem isTokenChar_of_isNameChar {c : Char} (h : isNameChar c = true) : isTokenChar c = true := by
  rw [isTokenChar_iff, isSpace]
  simp only [Bool.or_eq_false_iff, beq_eq_false_iff_ne]
  refine ⟨⟨⟨?_, ?_⟩, ?_⟩, ?_, ?_⟩ <;> rintro rfl <;> revert h <;> decide

theorem tokenChars_of_isName {n : List Char} (h : isName n = true) :
    ∃ c cs, n = c :: cs ∧ ∀ x ∈ c :: cs, isTokenChar x = true := by
  cases n with
  | nil => cases h
  | cons c cs =>
    simp only [isName, Bool.and_eq_true, List.all_eq_true] at h
    refine ⟨c, cs, rfl, fun x hx => isTokenChar_of_isNameChar ?_⟩
    rcases List.mem_cons.1 hx with rfl | hx
    · simp [isNameChar, h.1]
    · exact h.2 x hx

theorem tokenChars_of_isDigits {ds : List Char} (h : isDigits ds = true) : ∀ x ∈ ds, isTokenChar x = true := by
  simp only [isDigits, Bool.and_eq_true, List.all_eq_true] at h
  exact fun x hx => isTokenChar_of_isNameChar (by simp [isNameChar, h.2 x hx])

end Lexing

section Operands

/-- A token that does not begin with a slash is a number, a label or malformed (R139). -/
theorem classify_of_not_slash {t : Token} (h : ∀ b, t.text ≠ '/' :: b) :
    classify t = if isDigits t.text then (parseLiteral t t.text).map .number
      else if isName t.text then .ok (.label t.text)
      else failAt t .parseError := by
  obtain ⟨text, rest⟩ := t
  simp only at h
  unfold classify
  split
  · rename_i b hb
    exact absurd hb (h _)
  · rfl

theorem classify_slash (body : List Char) (rest : Source) :
    classify { text := '/' :: body, rest := rest } = classifySlash { text := '/' :: body, rest := rest } body := rfl

theorem isName_ne_slash {n : List Char} (h : isName n = true) (b : List Char) : n ≠ '/' :: b := by
  rintro rfl
  simp only [isName, Bool.and_eq_true] at h
  exact absurd h.1 (by decide)

theorem isDigits_ne_slash {n : List Char} (h : isDigits n = true) (b : List Char) : n ≠ '/' :: b := by
  rintro rfl
  simp only [isDigits, List.all_cons, Bool.and_eq_true] at h
  exact absurd h.2.1 (by decide)

/-- A printed number is a digit string with the value printed. -/
theorem isDigit_ofNat : ∀ d < 10, isDigit (Char.ofNat ('0'.toNat + d)) = true := by decide

theorem toNat_ofNat_digit : ∀ d < 10, (Char.ofNat ('0'.toNat + d)).toNat - '0'.toNat = d := by decide

theorem isDigits_printNumber (v : Word) : isDigits (printNumber v) = true := by
  have := v.isLt
  simp only [printNumber, isDigits, List.map_cons, List.map_nil, List.all_cons, List.all_nil,
    isDigit_ofNat (v.toNat / 1000) (by omega), isDigit_ofNat (v.toNat / 100 % 10) (by omega),
    isDigit_ofNat (v.toNat / 10 % 10) (by omega), isDigit_ofNat (v.toNat % 10) (by omega)]
  rfl

theorem decimalValue_printNumber (v : Word) : decimalValue (printNumber v) = v.toNat := by
  have := v.isLt
  simp only [printNumber, decimalValue, List.map_cons, List.map_nil, List.foldl_cons, List.foldl_nil,
    toNat_ofNat_digit (v.toNat / 1000) (by omega), toNat_ofNat_digit (v.toNat / 100 % 10) (by omega),
    toNat_ofNat_digit (v.toNat / 10 % 10) (by omega), toNat_ofNat_digit (v.toNat % 10) (by omega)]
  omega

theorem map_error {α β : Type} {x : Except Failure α} {g : α → β} {f : Failure} (h : x.map g = .error f) :
    x = .error f := by
  cases x with
  | error e => exact congrArg _ (Except.error.inj h)
  | ok a => cases h

/-- An operand token fails by its spelling or by its value, and at itself (R139, R140, R146). -/
theorem classify_error {t : Token} {f : Failure} (h : classify t = .error f) :
    f = { error := .invalidNumber, rest := some t.rest } ∨ f = { error := .parseError, rest := some t.rest } := by
  have literal : ∀ ds, parseLiteral t ds = .error f → f = { error := .invalidNumber, rest := some t.rest } := by
    intro ds h
    unfold parseLiteral at h
    split at h
    · cases h
    · exact (Except.error.inj h).symm
  have malformed : ∀ {α : Type}, (failAt t .parseError : Except Failure α) = .error f →
      f = { error := .parseError, rest := some t.rest } := fun h => (Except.error.inj h).symm
  unfold classify at h
  split at h
  · unfold classifySlash at h
    split at h
    · exact .inl (literal _ (map_error h))
    · split at h
      · cases h
      · split at h
        · split at h
          · exact .inl (literal _ (map_error h))
          · exact .inr (malformed h)
        · exact .inr (malformed h)
  · split at h
    · exact .inl (literal _ (map_error h))
    · split at h
      · cases h
      · exact .inr (malformed h)

theorem checkSpellings_ok {ts : List Token} (h : ∀ u ∈ ts, ∃ form, classify u = .ok form) :
    checkSpellings ts = .ok () := by
  induction ts with
  | nil => rfl
  | cons t ts ih =>
    obtain ⟨form, hf⟩ := h t (by simp)
    simp only [checkSpellings, hf]
    exact ih fun u hu => h u (by simp [hu])

/-- The first misspelled token gives the failure (R145). -/
theorem checkSpellings_error {ts more : List Token} {t : Token} {f : Failure}
    (h : ∀ u ∈ ts, ∃ form, classify u = .ok form) (ht : classify t = .error f) :
    checkSpellings (ts ++ t :: more) = .error f := by
  induction ts with
  | nil => simp [checkSpellings, ht]
  | cons u ts ih =>
    obtain ⟨form, hf⟩ := h u (by simp)
    simp only [List.cons_append, checkSpellings, hf]
    exact ih fun x hx => h x (by simp [hx])

/-- There is no surplus token (R144). -/
theorem checkSurplus_ok {ts : List Token} (h : checkSurplus ts = .ok ()) : ts = [] := by
  unfold checkSurplus at h
  split at h
  · cases h
  · cases ts with
    | nil => rfl
    | cons t ts => cases h

/-- Surplus tokens, all spelled well, fail at the first of them (R144). -/
theorem checkSurplus_cons {t : Token} {more : List Token} (h : ∀ u ∈ t :: more, ∃ form, classify u = .ok form) :
    checkSurplus (t :: more) = failAt t .syntaxError := by
  simp only [checkSurplus, checkSpellings_ok h]

/-- Surplus tokens fail with the first misspelled one (log entry 8: DEDUCED, unsafe). -/
theorem checkSurplus_error {ts more : List Token} {t : Token} {f : Failure}
    (h : ∀ u ∈ ts, ∃ form, classify u = .ok form) (ht : classify t = .error f) :
    checkSurplus (ts ++ t :: more) = .error f := by
  rw [checkSurplus.eq_def, checkSpellings_error h ht]

/-- An operand is accepted alone, spelled well and of its kind (R142–R144). -/
theorem parseOperand_ok {α : Type} {m : Token} {kind : Token → OperandForm → Except Failure α} {ts : List Token} {v : α}
    (h : parseOperand m kind ts = .ok v) : ∃ t form, ts = [t] ∧ classify t = .ok form ∧ kind t form = .ok v := by
  cases ts with
  | nil => cases h
  | cons t more =>
    simp only [parseOperand] at h
    split at h
    · cases h
    · rename_i form hform
      split at h
      · cases h
      · rename_i w hw
        split at h
        · cases h
        · rename_i hs
          cases h
          rw [checkSurplus_ok hs]
          exact ⟨t, form, rfl, hform, hw⟩

/-- The parser's failure is that of the first line that fails (R145). -/
theorem parseLines_error {lines : List Source} {f : Failure} (h : parseLines lines = .error f) :
    ∃ before line after, lines = before ++ line :: after ∧ (∀ l ∈ before, ∃ ln, parseLine l = .ok ln) ∧
      parseLine line = .error f := by
  induction lines with
  | nil => cases h
  | cons l ls ih =>
    simp only [parseLines] at h
    split at h
    · rename_i g hg
      cases h
      exact ⟨[], l, ls, rfl, by simp, hg⟩
    · rename_i ln hln
      obtain ⟨before, line, after, rfl, h1, h2⟩ := ih (map_error h)
      refine ⟨l :: before, line, after, rfl, fun x hx => ?_, h2⟩
      rcases List.mem_cons.1 hx with rfl | hx
      · exact ⟨_, hln⟩
      · exact h1 x hx

end Operands

section Labels

/-- `bindLabel` leaves the table for a line without a label and adds a new label's binding (R162). -/
theorem bindLabel_ok {t t' : Table} {c : Address} {l : Option LabelName} (h : bindLabel t c l = .ok t') :
    (l = none ∧ t' = t) ∨ ∃ n, l = some n ∧ t.find n = none ∧ t' = (n, c) :: t := by
  unfold bindLabel at h
  split at h
  · simp_all
  · split at h
    · cases h
    · simp_all

theorem find_eq_none_iff {t : Table} {n : LabelName} : t.find n = none ↔ n ∉ t.map Prod.fst := by
  induction t with
  | nil => simp [Table.find]
  | cons c t ih =>
    obtain ⟨m, a⟩ := c
    by_cases h : n = m
    · simp [Table.find, h]
    · simp [Table.find, h, ih]

theorem labelsOf_cons (ln : Line) (ls : List Line) : labelsOf (ln :: ls) = ln.label.toList ++ labelsOf ls := by
  simp only [labelsOf, List.filterMap_cons]
  cases ln.label <;> simp

theorem counterAfter_append (c : Address) (a b : List Line) :
    counterAfter c (a ++ b) = counterAfter (counterAfter c a) b := by
  simp [counterAfter]

end Labels

section Images

theorem hasEnd_cons {ln : Line} {ls : List Line} :
    hasEnd (ln :: ls) = false ↔ ln.cmd ≠ some (.dir .endOfProgram) ∧ hasEnd ls = false := by
  simp [hasEnd]

/-- A line emits a word exactly when its command places one (R167, R168, R171). -/
theorem isSome_emit {table : Table} {cmd : Option Command} {w : Option Word} (h : emit table cmd = .ok w) :
    w.isSome = placesWord cmd := by
  rcases cmd with _ | (⟨op, d⟩ | _ | d)
  · cases h; rfl
  · simp only [emit] at h
    cases hr : resolve table d with
    | error e => rw [hr] at h; cases h
    | ok a => rw [hr] at h; cases h; rfl
  · cases h; rfl
  · cases d <;> cases h <;> rfl

/-- A line's failure in pass 2 is its undefined label (R168). -/
theorem emit_error_iff {table : Table} {cmd : Option Command} {f : Failure} :
    emit table cmd = .error f ↔ ∃ op n, cmd = some (.addressed op (.sym n)) ∧ table.find n = none ∧
      f = { error := .undefinedLabel n, rest := none } := by
  constructor
  · intro h
    rcases cmd with _ | (⟨op, d⟩ | _ | d)
    · cases h
    · have h := map_error h
      cases d with
      | lit a => cases h
      | sym n =>
        simp only [resolve] at h
        cases hf : table.find n with
        | none => rw [hf] at h; cases h; exact ⟨op, n, rfl, hf, rfl⟩
        | some a => rw [hf] at h; cases h
    · cases h
    · cases d <;> cases h
  · rintro ⟨op, n, rfl, hf, rfl⟩
    simp [emit, resolve, hf, Except.map]

/-- Placing a word keeps the image canonical. -/
theorem wf_place {m : Machine.Memory} (h : m.wf = true) (c : Address) (w : Option Word) : (place m c w).wf = true := by
  cases w with
  | none => exact h
  | some w => exact Machine.Memory.wf_write h _ _

end Images

end Sys2Proof.Asm
end

