-- ==== Sys2Proof/Laws/Encoding.lean ====
section
/-! SUPPORT. The fields of a word and of an encoding, as numbers. -/

namespace Sys2Proof

/-- Bits 11–9 as a number (R61). -/
theorem opcodeField_toNat (w : Word) : (opcodeField w).toNat = w.toNat / 512 := by
  have := w.isLt
  simp only [opcodeField, BitVec.extractLsb'_toNat, Nat.shiftRight_eq_div_pow]
  omega

/-- Bits 8–0 as a number (R61). -/
theorem addressField_toNat (w : Word) : (addressField w).toNat = w.toNat % 512 := by
  simp [addressField, BitVec.extractLsb'_toNat]

/-- The index an Address names (R41). -/
@[simp] theorem indexOf_toNat (a : Address) : (indexOf a).toNat = a.toNat % 512 := by
  simp [indexOf, BitVec.extractLsb'_toNat]

theorem indexOf_eq_ofNat (a : Address) : indexOf a = BitVec.ofNat 9 (a.toNat % 512) := by
  apply BitVec.eq_of_toNat_eq
  simp

@[simp] theorem zext12_toNat (i : Index) : (zext12 i).toNat = i.toNat := by
  have := i.isLt
  simp only [zext12, BitVec.toNat_setWidth]
  omega

/-- Zero-extending an index and masking it again gives it back. -/
@[simp] theorem indexOf_zext12 (i : Index) : indexOf (zext12 i) = i := by
  apply BitVec.eq_of_toNat_eq
  have := i.isLt
  simp only [indexOf_toNat, zext12_toNat]
  omega

/-- The 9 bits of an address that fits are the address (R67). -/
theorem zext12_indexOf {a : Address} (h : addressFits a = true) : zext12 (indexOf a) = a := by
  apply BitVec.eq_of_toNat_eq
  simp only [addressFits, decide_eq_true_eq] at h
  simp only [zext12_toNat, indexOf_toNat]
  omega

theorem opcodeBits_toNat (op : Opcode) : (opcodeBits op).toNat = 512 * op.toNat := by
  have := op.isLt
  simp only [opcodeBits, BitVec.toNat_shiftLeft, BitVec.toNat_setWidth, Nat.shiftLeft_eq]
  omega

theorem and_511 (n : Nat) : n &&& 511 = n % 512 := Nat.and_two_pow_sub_one_eq_mod n 9

/-- The encoding of an addressed instruction as a number (R63). -/
theorem encodeAddressed_toNat (op : Opcode) (a : Address) :
    (encodeAddressed op a).toNat = 512 * op.toNat + a.toNat % 512 := by
  have h : a.toNat % 512 < 2 ^ 9 := Nat.mod_lt _ (by norm_num)
  have e : (encodeAddressed op a).toNat = 2 ^ 9 * op.toNat ||| a.toNat % 512 := by
    simp only [encodeAddressed, BitVec.toNat_or, BitVec.toNat_and, opcodeBits_toNat]
    rw [show (511#12).toNat = 511 from rfl, and_511, show (2 : Nat) ^ 9 = 512 from rfl]
  rw [e, ← Nat.two_pow_add_eq_or_of_lt h]

@[simp] theorem opcodeField_encodeAddressed (op : Opcode) (a : Address) : opcodeField (encodeAddressed op a) = op := by
  apply BitVec.eq_of_toNat_eq
  rw [opcodeField_toNat, encodeAddressed_toNat]
  omega

@[simp] theorem opcodeField_opcodeBits (op : Opcode) : opcodeField (opcodeBits op) = op := by
  apply BitVec.eq_of_toNat_eq
  rw [opcodeField_toNat, opcodeBits_toNat]
  omega

@[simp] theorem addressField_encodeAddressed (op : Opcode) (a : Address) :
    addressField (encodeAddressed op a) = indexOf a := by
  apply BitVec.eq_of_toNat_eq
  rw [addressField_toNat, encodeAddressed_toNat, indexOf_toNat]
  omega

/-- The instruction an opcode and an address field select (R65): the decoder as a function of the two fields. -/
def decodeFields (op : Opcode) (i : Index) : Instr :=
  match op.getLsbD 2, op.getLsbD 1, op.getLsbD 0 with
  | false, false, false => .store (zext12 i)
  | false, false, true => .load (zext12 i)
  | false, true, false => .add (zext12 i)
  | false, true, true => .branch (zext12 i)
  | true, false, false => .branchIfZero (zext12 i)
  | true, false, true => .clear
  | true, true, false => .decrease
  | true, true, true => .halt

/-- The instruction of each opcode (R62, R65). -/
@[simp] theorem decodeFields_store (i : Index) : decodeFields 0#3 i = .store (zext12 i) := rfl
@[simp] theorem decodeFields_load (i : Index) : decodeFields 1#3 i = .load (zext12 i) := rfl
@[simp] theorem decodeFields_add (i : Index) : decodeFields 2#3 i = .add (zext12 i) := rfl
@[simp] theorem decodeFields_branch (i : Index) : decodeFields 3#3 i = .branch (zext12 i) := rfl
@[simp] theorem decodeFields_branchIfZero (i : Index) : decodeFields 4#3 i = .branchIfZero (zext12 i) := rfl
@[simp] theorem decodeFields_clear (i : Index) : decodeFields 5#3 i = .clear := rfl
@[simp] theorem decodeFields_decrease (i : Index) : decodeFields 6#3 i = .decrease := rfl
@[simp] theorem decodeFields_halt (i : Index) : decodeFields 7#3 i = .halt := rfl

/-- Decoding reads the two fields of a word and nothing else (R65). -/
theorem decode_eq_decodeFields (w : Word) : decode w = decodeFields (opcodeField w) (addressField w) := by
  simp only [decode, decodeFields, opcodeField, BitVec.getLsbD_extractLsb']
  rfl

end Sys2Proof
end

