-- ==== Sys2Proof/Laws/State.lean ====
section
/-! SUPPORT. What each update of the state does to each field, so that no proof unfolds a record update. -/

namespace Sys2Proof.Machine

section WithAcc
variable (s : State) (v : Word)

@[simp] theorem State.withAcc_acc : (s.withAcc v).acc = v := rfl
@[simp] theorem State.withAcc_pc : (s.withAcc v).pc = s.pc := rfl
@[simp] theorem State.withAcc_ir : (s.withAcc v).ir = s.ir := rfl
@[simp] theorem State.withAcc_mem : (s.withAcc v).mem = s.mem := rfl
@[simp] theorem State.withAcc_hist : (s.withAcc v).hist = s.hist := rfl

end WithAcc

section WithPc
variable (s : State) (v : Word)

@[simp] theorem State.withPc_acc : (s.withPc v).acc = s.acc := rfl
@[simp] theorem State.withPc_pc : (s.withPc v).pc = v := rfl
@[simp] theorem State.withPc_ir : (s.withPc v).ir = s.ir := rfl
@[simp] theorem State.withPc_mem : (s.withPc v).mem = s.mem := rfl
@[simp] theorem State.withPc_hist : (s.withPc v).hist = s.hist := rfl

end WithPc

section WithIr
variable (s : State) (v : Word)

@[simp] theorem State.withIr_acc : (s.withIr v).acc = s.acc := rfl
@[simp] theorem State.withIr_pc : (s.withIr v).pc = s.pc := rfl
@[simp] theorem State.withIr_ir : (s.withIr v).ir = v := rfl
@[simp] theorem State.withIr_mem : (s.withIr v).mem = s.mem := rfl
@[simp] theorem State.withIr_hist : (s.withIr v).hist = s.hist := rfl

end WithIr

section MemWrite
variable (s : State) (i : Index) (v : Word)

@[simp] theorem State.memWrite_acc : (s.memWrite i v).acc = s.acc := rfl
@[simp] theorem State.memWrite_pc : (s.memWrite i v).pc = s.pc := rfl
@[simp] theorem State.memWrite_ir : (s.memWrite i v).ir = s.ir := rfl
@[simp] theorem State.memWrite_mem : (s.memWrite i v).mem = s.mem.write i v := rfl
@[simp] theorem State.memWrite_hist : (s.memWrite i v).hist = s.hist := rfl

end MemWrite

section PushHistory
variable (s : State) (i : Index)

@[simp] theorem State.pushHistory_acc : (s.pushHistory i).acc = s.acc := rfl
@[simp] theorem State.pushHistory_pc : (s.pushHistory i).pc = s.pc := rfl
@[simp] theorem State.pushHistory_ir : (s.pushHistory i).ir = s.ir := rfl
@[simp] theorem State.pushHistory_mem : (s.pushHistory i).mem = s.mem := rfl
@[simp] theorem State.pushHistory_hist : (s.pushHistory i).hist = keepNewest (i :: s.hist) Config.historyDepth := rfl

end PushHistory

section SetMemory
variable (s : State) (m : Memory)

@[simp] theorem State.setMemory_acc : (s.setMemory m).acc = s.acc := rfl
@[simp] theorem State.setMemory_pc : (s.setMemory m).pc = s.pc := rfl
@[simp] theorem State.setMemory_ir : (s.setMemory m).ir = s.ir := rfl
@[simp] theorem State.setMemory_mem : (s.setMemory m).mem = m.canonical := rfl
@[simp] theorem State.setMemory_hist : (s.setMemory m).hist = [] := rfl

end SetMemory

section ResetRegisters
variable (s : State)

@[simp] theorem State.resetRegisters_acc : (s.resetRegisters).acc = 0 := rfl
@[simp] theorem State.resetRegisters_pc : (s.resetRegisters).pc = 0 := rfl
@[simp] theorem State.resetRegisters_ir : (s.resetRegisters).ir = 0 := rfl
@[simp] theorem State.resetRegisters_mem : (s.resetRegisters).mem = s.mem := rfl
@[simp] theorem State.resetRegisters_hist : (s.resetRegisters).hist = s.hist := rfl

end ResetRegisters

/-- The fields of the state the fetch leaves (R81). -/
@[simp] theorem State.fetch_ir (s : State) : s.fetch.ir = s.fetchWord := rfl
@[simp] theorem State.fetch_acc (s : State) : s.fetch.acc = s.acc := rfl
@[simp] theorem State.fetch_pc (s : State) : s.fetch.pc = s.pc := rfl
@[simp] theorem State.fetch_mem (s : State) : s.fetch.mem = s.mem := rfl
@[simp] theorem State.fetch_hist (s : State) : s.fetch.hist = s.hist := rfl

/-- The `PC` update writes `PC` and nothing else (R85). -/
@[simp] theorem State.updatePc_acc (s : State) (n : Next) : (s.updatePc n).acc = s.acc := by cases n <;> rfl
@[simp] theorem State.updatePc_ir (s : State) (n : Next) : (s.updatePc n).ir = s.ir := by cases n <;> rfl
@[simp] theorem State.updatePc_mem (s : State) (n : Next) : (s.updatePc n).mem = s.mem := by cases n <;> rfl
@[simp] theorem State.updatePc_hist (s : State) (n : Next) : (s.updatePc n).hist = s.hist := by cases n <;> rfl
@[simp] theorem State.updatePc_advance_pc (s : State) : (s.updatePc .advance).pc = s.pc + 1 := rfl
@[simp] theorem State.updatePc_jump_pc (s : State) (t : Index) : (s.updatePc (.jump t)).pc = zext12 t := rfl
@[simp] theorem State.updatePc_stay (s : State) : s.updatePc .stay = s := rfl

/-- The operand word does not depend on the registers. -/
@[simp] theorem State.operandWord_eq (s : State) (a : Address) : s.operandWord a = s.mem.read (effectiveIndex a) := rfl

/-- The zero predicate tests all of `ACC` (R26). -/
@[simp] theorem State.zero_iff (s : State) : s.zero = true ↔ s.acc = 0 := by simp [State.zero]

end Sys2Proof.Machine
end

