-- ==== Sys2Proof/Laws/Exec.lean ====
section
/-! SUPPORT. Everything one instruction, and one step, can do: the state each leaves, written once as a record. -/

namespace Sys2Proof.Machine

/-- The state an instruction leaves (R83–R85). -/
def after : Instr → State → State
  | .store a, s =>
    { acc := s.acc, pc := s.pc + 1, ir := s.ir, mem := s.mem.write (indexOf a) s.acc,
      hist := keepNewest (indexOf a :: s.hist) Config.historyDepth }
  | .load a, s => { acc := s.mem.read (indexOf a), pc := s.pc + 1, ir := s.ir, mem := s.mem, hist := s.hist }
  | .add a, s => { acc := s.acc + s.mem.read (indexOf a), pc := s.pc + 1, ir := s.ir, mem := s.mem, hist := s.hist }
  | .branch a, s => { acc := s.acc, pc := zext12 (indexOf a), ir := s.ir, mem := s.mem, hist := s.hist }
  | .branchIfZero a, s =>
    { acc := s.acc, pc := if s.acc = 0 then zext12 (indexOf a) else s.pc + 1, ir := s.ir, mem := s.mem, hist := s.hist }
  | .clear, s => { acc := 0, pc := s.pc + 1, ir := s.ir, mem := s.mem, hist := s.hist }
  | .decrease, s => { acc := s.acc - 1, pc := s.pc + 1, ir := s.ir, mem := s.mem, hist := s.hist }
  | .halt, s => s

/-- Every instruction answers a next state, the one `after` gives. -/
theorem exec_eq (i : Instr) (s : State) : exec i s = .next (after i s) := by
  cases i with
  | branchIfZero a =>
    by_cases h : s.acc = 0
    · simp only [exec, execBranchIfZero, s.zero_iff.2 h, after, if_pos h]
      rfl
    · simp only [exec, execBranchIfZero, mt s.zero_iff.1 h, after, if_neg h]
      rfl
  | _ => rfl

/-- BranchIfZero on a zero accumulator (R121). -/
theorem after_branchIfZero_taken {s : State} (a : Address) (h : s.acc = 0) :
    after (.branchIfZero a) s = { s with pc := zext12 (indexOf a) } := by simp only [after, if_pos h]

/-- BranchIfZero on any other accumulator (R121). -/
theorem after_branchIfZero_not_taken {s : State} (a : Address) (h : s.acc ≠ 0) :
    after (.branchIfZero a) s = { s with pc := s.pc + 1 } := by simp only [after, if_neg h]

/-- No instruction writes `IR` (R25). -/
@[simp] theorem after_ir (i : Instr) (s : State) : (after i s).ir = s.ir := by cases i <;> rfl

/-- An instruction keeps the memory canonical and the history short. -/
theorem after_inv {i : Instr} {s : State} (h : s.Inv) : (after i s).Inv := by
  cases i with
  | store a => exact ⟨Memory.wf_write h.1 _ _, length_keepNewest_le _ _⟩
  | _ => exact h

/-- A step fetches, then leaves what the decoded instruction leaves (R81–R85). -/
theorem step_eq (s : State) : step s = .next (after (decode s.fetchWord) s.fetch) := exec_eq _ _

/-- What a step reports beside (R86). -/
theorem stepReporting_eq (s : State) :
    stepReporting s = .next (after (decode s.fetchWord) s.fetch, stepResult s) := by
  simp only [stepReporting, step_eq]

theorem step_next_iff {s t : State} : step s = .next t ↔ t = after (decode s.fetchWord) s.fetch := by
  rw [step_eq, Host.Outcome.next.injEq, eq_comm]

theorem resultOf_eq_halted_iff {i : Instr} : resultOf i = .halted ↔ i = .halt := by cases i <;> simp [resultOf]

/-- `n + 1` steps are one step and `n` more. -/
theorem stepMany_succ (n : Nat) (s : State) :
    stepMany (n + 1) s = stepMany n (after (decode s.fetchWord) s.fetch) := by
  simp only [stepMany, step_eq]

end Sys2Proof.Machine
end

