-- ==== Sys2Proof/Laws/PerInstr.lean ====
section
/-! SUPPORT. Statements made once for each constructor of `Instr`. -/

namespace Sys2Proof.Laws

/-- Decoding gives an encoded well-formed instruction back (R67). -/
def RoundTrip.Statement (i : Instr) : Prop := i.wf = true → decode (encode i) = i

theorem RoundTrip.addressed {i : Instr} {op : Opcode} {a : Address} (he : encode i = encodeAddressed op a)
    (hd : decodeFields op (indexOf a) = i) : decode (encode i) = i := by
  rw [he, decode_eq_decodeFields, opcodeField_encodeAddressed, addressField_encodeAddressed, hd]

theorem RoundTrip.store (a : Address) : RoundTrip.Statement (.store a) := fun h =>
  RoundTrip.addressed (op := 0#3) rfl (by rw [decodeFields_store, zext12_indexOf h])
theorem RoundTrip.load (a : Address) : RoundTrip.Statement (.load a) := fun h =>
  RoundTrip.addressed (op := 1#3) rfl (by rw [decodeFields_load, zext12_indexOf h])
theorem RoundTrip.add (a : Address) : RoundTrip.Statement (.add a) := fun h =>
  RoundTrip.addressed (op := 2#3) rfl (by rw [decodeFields_add, zext12_indexOf h])
theorem RoundTrip.branch (a : Address) : RoundTrip.Statement (.branch a) := fun h =>
  RoundTrip.addressed (op := 3#3) rfl (by rw [decodeFields_branch, zext12_indexOf h])
theorem RoundTrip.branchIfZero (a : Address) : RoundTrip.Statement (.branchIfZero a) := fun h =>
  RoundTrip.addressed (op := 4#3) rfl (by rw [decodeFields_branchIfZero, zext12_indexOf h])
theorem RoundTrip.clear : RoundTrip.Statement .clear := fun _ => rfl
theorem RoundTrip.decrease : RoundTrip.Statement .decrease := fun _ => rfl
theorem RoundTrip.halt : RoundTrip.Statement .halt := fun _ => rfl

/-- The encoder gives only canonical words (R66). -/
def CanonicalWord.Statement (i : Instr) : Prop := canonical (encode i) = true

theorem CanonicalWord.addressed {op : Opcode} (a : Address) (h : op.toNat ≤ 4) :
    canonical (encodeAddressed op a) = true := by
  simp [canonical, h]

theorem CanonicalWord.store (a : Address) : CanonicalWord.Statement (.store a) := CanonicalWord.addressed (op := 0#3) a (by decide)
theorem CanonicalWord.load (a : Address) : CanonicalWord.Statement (.load a) := CanonicalWord.addressed (op := 1#3) a (by decide)
theorem CanonicalWord.add (a : Address) : CanonicalWord.Statement (.add a) := CanonicalWord.addressed (op := 2#3) a (by decide)
theorem CanonicalWord.branch (a : Address) : CanonicalWord.Statement (.branch a) :=
  CanonicalWord.addressed (op := 3#3) a (by decide)
theorem CanonicalWord.branchIfZero (a : Address) : CanonicalWord.Statement (.branchIfZero a) :=
  CanonicalWord.addressed (op := 4#3) a (by decide)
theorem CanonicalWord.clear : CanonicalWord.Statement .clear := rfl
theorem CanonicalWord.decrease : CanonicalWord.Statement .decrease := rfl
theorem CanonicalWord.halt : CanonicalWord.Statement .halt := rfl

end Sys2Proof.Laws
end

