-- ==== Sys2Proof/Tests/Slice0.lean ====
section
/-! SUPPORT. The model's own tests. Expected values are those of spec/95_test_vectors.md (the vector is named beside
each) and of the tables of spec/44_asm_parser.md; the last part shows, for each statement with hypotheses, values that
meet them. -/

namespace Sys2Proof.Tests

open Sys2Proof.Machine

-- WellFormed: an address of 512 is refused for each addressed instruction, 511 is not

theorem test_wf_refuses_512 :
    (Instr.store 512).wf = false ∧ (Instr.load 512).wf = false ∧ (Instr.add 512).wf = false ∧
    (Instr.branch 512).wf = false ∧ (Instr.branchIfZero 512).wf = false := by decide

theorem test_wf_accepts_511 :
    (Instr.store 511).wf = true ∧ (Instr.load 511).wf = true ∧ (Instr.add 511).wf = true ∧
    (Instr.branch 511).wf = true ∧ (Instr.branchIfZero 511).wf = true ∧
    Instr.clear.wf = true ∧ Instr.decrease.wf = true ∧ Instr.halt.wf = true := by decide

-- Decode: each constructor's word, bit by bit (spec/30_encoding.md R61, R62)

theorem test_decode_store : decode 0b000_000001010#12 = .store 10 := by decide          -- 0x00A, M1
theorem test_decode_store_zero_word : decode 0b000_000000000#12 = .store 0 := by decide -- E14
theorem test_decode_load : decode 0b001_000000101#12 = .load 5 := by decide             -- 0x205, E3
theorem test_decode_add : decode 0b010_000000110#12 = .add 6 := by decide               -- 0x406, P1
theorem test_decode_branch : decode 0b011_011111111#12 = .branch 255 := by decide       -- 0x6FF, C2
theorem test_decode_branchIfZero : decode 0b100_111111111#12 = .branchIfZero 511 := by decide -- 0x9FF, E8
theorem test_decode_clear : decode 0b101_000000000#12 = .clear := by decide             -- 0xA00
theorem test_decode_clear_noncanonical : decode 0b101_000000001#12 = .clear := by decide -- 0xA01, E9
theorem test_decode_decrease : decode 0b110_000000000#12 = .decrease := by decide       -- 0xC00
theorem test_decode_decrease_noncanonical : decode 0b110_000000001#12 = .decrease := by decide -- 0xC01, X11
theorem test_decode_halt : decode 0b111_000000000#12 = .halt := by decide               -- 0xE00
theorem test_decode_halt_noncanonical : decode 0b111_000000001#12 = .halt := by decide  -- 0xE01, C11

theorem test_encode_masks_address : encode (.load 600) = 0x258#12 ∧ encode (.load 4095) = 0x3FF#12 := by decide -- E4, E5
theorem test_encode_noncanonical_words :
    encode (decode 0xA01#12) = 0xA00#12 ∧ encode (decode 0xFFF#12) = 0xE00#12 := by decide -- E12, E13
theorem test_decodeTableWord :
    decodeTableWord 16 0x205 = some (.load 5) ∧ decodeTableWord 12 0xE00 = some .halt ∧
    decodeTableWord 16 0x1205 = none := by decide

-- One step of each instruction (spec/95_test_vectors.md section 3)

/-- A state with the given `ACC`, `PC` and memory, `IR` zero and no history. -/
def stateAt (acc pc : Word) (mem : Memory) : State := { acc := acc, pc := pc, ir := 0, mem := mem, hist := [] }

/-- `ACC`, `PC` and `IR` after one step, and the step's report. -/
def stepped (s : State) : Option (Word × Word × Word × StepResult) :=
  match stepReporting s with
  | .next (t, r) => some (t.acc, t.pc, t.ir, r)
  | _ => none

/-- A memory word and the history after one step. -/
def steppedMemory (s : State) (i : Index) : Option (Word × List Index) :=
  match step s with
  | .next t => some (t.mem.read i, t.hist)
  | _ => none

theorem test_store_M1 : steppedMemory (stateAt 0x123 0 [(0, 0x00A)]) 10 = some (0x123, [10]) := by decide
theorem test_store_M2_own_word : steppedMemory (stateAt 0xE00 7 [(7, 0x007)]) 7 = some (0xE00, [7]) := by decide
theorem test_load_M5 : stepped (stateAt 7 0 [(0, 0x205)]) = some (0, 1, 0x205, .continue) := by decide
theorem test_load_M7 : stepped (stateAt 0 0 [(0, 0x3FF), (511, 0xFFF)]) = some (0xFFF, 1, 0x3FF, .continue) := by decide
theorem test_add_X1 : stepped (stateAt 4095 1 [(1, 0x406), (6, 2)]) = some (1, 2, 0x406, .continue) := by decide
theorem test_add_X5 : stepped (stateAt 3 2 [(2, 0x402)]) = some (0x405, 3, 0x402, .continue) := by decide
theorem test_clear_X7 : stepped (stateAt 0x7FF 0 [(0, 0xA5A)]) = some (0, 1, 0xA5A, .continue) := by decide
theorem test_clear_C12 : stepped (stateAt 9 511 [(511, 0xA00)]) = some (0, 512, 0xA00, .continue) := by decide
theorem test_decrease_X8 : stepped (stateAt 0 0 [(0, 0xC00)]) = some (4095, 1, 0xC00, .continue) := by decide
theorem test_decrease_X10 : stepped (stateAt 0x800 0 [(0, 0xC00)]) = some (0x7FF, 1, 0xC00, .continue) := by decide
theorem test_branch_C2 : stepped (stateAt 0 515 [(3, 0x6FF)]) = some (0, 255, 0x6FF, .continue) := by decide
theorem test_branchIfZero_C6 : stepped (stateAt 0x800 2 [(2, 0x804)]) = some (0x800, 3, 0x804, .continue) := by decide
theorem test_branchIfZero_C8 : stepped (stateAt 0 4095 [(511, 0x805)]) = some (0, 5, 0x805, .continue) := by decide
theorem test_pc_wraps_C7 : stepped (stateAt 1 4095 [(511, 0x800)]) = some (1, 0, 0x800, .continue) := by decide
theorem test_halt_C10 : stepped (stateAt 0 516 [(4, 0xE00)]) = some (0, 516, 0xE00, .halted) := by decide
theorem test_halt_C11 : stepped (stateAt 9 4 [(4, 0xE01)]) = some (9, 4, 0xE01, .halted) := by decide

theorem test_withFetchWord_runs : stepped (State.reset.withFetchWord 16 0xC00) = some (4095, 1, 0xC00, .continue) := by
  decide

/-- T1: `reset_registers` leaves memory and history. -/
theorem test_resetRegisters_T1 :
    ({ acc := 5, pc := 300, ir := 0x123, mem := [(0, 0xE00)], hist := [3] } : State).resetRegisters =
      { acc := 0, pc := 0, ir := 0, mem := [(0, 0xE00)], hist := [3] } := by decide

/-- T2: `set_memory` of zeros leaves the registers. -/
theorem test_setMemory_T2 :
    ({ acc := 5, pc := 300, ir := 0x123, mem := [(0, 0xE00)], hist := [3] } : State).setMemory [] =
      { acc := 5, pc := 300, ir := 0x123, mem := [], hist := [] } := by decide +kernel

-- The parser's table of outcomes (spec/44_asm_parser.md section 7)

/-- The error of a parse, or none. -/
def parseErrorOf (s : String) : Option Asm.AsmError :=
  match Asm.parse s.toList with
  | .ok _ => none
  | .error f => some f.error

/-- The lines of a parse, or none. -/
def parsed (s : String) : Option (List Asm.Line) := (Asm.parse s.toList).toOption

theorem test_parse_operand_kinds :
    parseErrorOf " org 10" = some (.invalidParameter .address) ∧ parseErrorOf " data /5" = some (.invalidParameter .number) ∧
    parseErrorOf " data foo" = some (.invalidParameter .number) ∧
    parseErrorOf " ld 5" = some (.invalidParameter .direction) := by decide
theorem test_parse_missing_and_surplus :
    parseErrorOf " ld" = some .missingParameter ∧ parseErrorOf " halt /5" = some .syntaxError ∧
    parseErrorOf " ld /5 /6" = some .syntaxError := by decide
theorem test_parse_bad_spellings :
    parseErrorOf " jmp /5" = some (.invalidInstruction "jmp".toList) ∧ parseErrorOf " data 4096" = some .invalidNumber ∧
    parseErrorOf " ld /5x" = some .parseError ∧ parseErrorOf "9lives: halt" = some .invalidLabelName := by decide
theorem test_parse_label_only : parsed "halt" = some [{ label := some "halt".toList, cmd := none }] := by decide
theorem test_parse_comment_after_token : parsed " halt;stop" = some [{ label := none, cmd := some (.plain .halt) }] := by
  decide
theorem test_parse_comment_only : parsed "   ; only a comment" = some [{ label := none, cmd := none }] := by decide
theorem test_parse_slash_minus :
    parsed " ld /-1" = some [{ label := none, cmd := some (.addressed .load (.lit 4095)) }] := by decide
theorem test_parse_failure_rest : Asm.parse " halt\n ld 5 ;c\n".toList =
    .error { error := .invalidParameter .direction, rest := some "5 ;c\n".toList } := by decide

-- Assembled images (spec/95_test_vectors.md section 4)

/-- The non-zero words of the image, or none. -/
def image (s : String) : Option Memory := (Asm.assemble s.toList).toOption

/-- The error of an assembly, or none. -/
def assembleErrorOf (s : String) : Option Asm.AsmError :=
  match Asm.assemble s.toList with
  | .ok _ => none
  | .error f => some f.error

theorem test_assemble_A2_A3 :
    image " res 3\n halt" = some [(3, 0xE00)] ∧ image "x: org /10\n halt\n br x" = some [(10, 0xE00), (11, 0x600)] := by
  decide
theorem test_assemble_A6 : image " halt\n end\n br nowhere" = some [(0, 0xE00)] := by decide
theorem test_assemble_A7 : assembleErrorOf "x: halt\n end\nx: clr" = some (.redefinedLabel "x".toList) := by decide
theorem test_assemble_A8 : image " br later\nlater: halt" = some [(0, 0x601), (1, 0xE00)] := by decide
theorem test_assemble_A11 : assembleErrorOf " br nowhere" = some (.undefinedLabel "nowhere".toList) := by decide
theorem test_assemble_A13 : image " data 1\n org /0\n data 2" = some [(0, 2)] := by decide
theorem test_assemble_A14 : image " org /600\nx: halt\n org /0\n br x" = some [(0, 0x658), (88, 0xE00)] := by decide
theorem test_assemble_A15 : image " org /4095\n data 1\n data 2" = some [(0, 2), (511, 1)] := by decide
theorem test_assemble_A16 : image " org /-1\nt: data 5\n ld t" = some [(0, 0x3FF), (511, 5)] := by decide
theorem test_assemble_A18 : image "\n\n   \n ; c\n halt\n\n" = some [(0, 0xE00)] := by decide
theorem test_assemble_A24 : image " ld /1\r\n halt\r\n" = some [(0, 0x201), (1, 0xE00)] := by decide
theorem test_assemble_A25 : assembleErrorOf " ld 5\n br nowhere" = some (.invalidParameter .direction) := by decide

-- Values that meet the hypotheses of the statements (Certificates/Slice0/Obligations.lean)

theorem test_witness_OpcodeFieldSelectsInstruction :
    (0x1FF#12).toNat / 512 = 0 ∧ (0x200#12).toNat / 512 = 1 ∧ (0x5FF#12).toNat / 512 = 2 ∧ (0x600#12).toNat / 512 = 3 ∧
    (0x9FF#12).toNat / 512 = 4 ∧ (0xA00#12).toNat / 512 = 5 ∧ (0xDFF#12).toNat / 512 = 6 ∧ (0xE00#12).toNat / 512 = 7 := by
  decide

theorem test_witness_RoundTripHoldsOnCanonicalWords :
    (Instr.load 511).wf = true ∧ canonical 0x9FF#12 = true ∧ canonical 0xA01#12 = false := by decide

theorem test_witness_StepRunsDecodedInstruction :
    (Instr.add 511).wf = true ∧
    (stateAt 1 512 [(0, 0x5FF)]).mem.read (BitVec.ofNat 9 ((stateAt 1 512 [(0, 0x5FF)]).pc.toNat % 512)) =
      encode (.add 511) := by decide

theorem test_witness_canonical_memory :
    (stateAt 0x123 0 [(0, 0x00A), (511, 1)]).mem.wf = true ∧ Memory.wf [(0, 0)] = false ∧ Memory.wf [(512, 1)] = false ∧
    Memory.wf [(1, 1), (1, 2)] = false := by decide

/-- For StepKeepsMemoryAndHistoryForm and TransactionsKeepMemoryAndHistoryForm. -/
theorem test_witness_invariant : State.reset.Inv ∧ (∃ t, step State.reset = .next t) ∧
    ∃ c r, transact { core := State.reset, registersReset := true } .step = .next (c, r) :=
  ⟨⟨rfl, Nat.zero_le _⟩, ⟨_, rfl⟩, _, _, rfl⟩

/-- For HaltedReportedExactlyForHalt: both clauses, at the two sides of the Halt words. -/
theorem test_witness_HaltedReportedExactlyForHalt :
    decode ((stateAt 0 4 [(4, 0xE00)]).mem.read (BitVec.ofNat 9 ((4#12).toNat % 512))) = .halt ∧
    decode ((stateAt 0 4 [(4, 0xDFF)]).mem.read (BitVec.ofNat 9 ((4#12).toNat % 512))) ≠ .halt := by decide

theorem test_witness_HaltedStepRepeats :
    decode (stateAt 0 516 [(4, 0xFFF)]).fetchWord = .halt ∧
    ∃ t, stepReporting (stateAt 0 516 [(4, 0xFFF)]) = .next (t, .halted) := ⟨by decide, _, rfl⟩

/-- A run whose second step halts, and one whose first does. -/
theorem test_witness_HaltedRunKeepsEndState :
    (∃ t, HaltsAfter 1 (stateAt 5 0 [(0, 0xC00), (1, 0xE00)]) t) ∧ ∃ t, HaltsAfter 0 (stateAt 5 1 [(1, 0xE00)]) t :=
  ⟨⟨_, _, rfl, rfl⟩, _, rfl⟩

/-- `PC` reaches 512 by the increment, and stays at 516 on a Halt. -/
theorem test_witness_PcAbove511OnlyByIncrement :
    (∃ t, step (stateAt 9 511 [(511, 0xA00)]) = .next t ∧ 512 ≤ t.pc.toNat) ∧
    ∃ t, step (stateAt 0 516 [(4, 0xE00)]) = .next t ∧ 512 ≤ t.pc.toNat :=
  ⟨⟨_, rfl, by decide⟩, _, rfl, by decide⟩

theorem test_witness_HighPcBitsNeverMatter : (4095#12).toNat % 512 = (stateAt 1 511 []).pc.toNat % 512 := by decide

theorem test_witness_OnlyStoreChangesMemory :
    (stateAt 0x123 0 [(0, 0x00A)]).mem.wf = true ∧
    ∃ t, step (stateAt 0x123 0 [(0, 0x00A)]) = .next t ∧ t.mem.read 10 ≠ (stateAt 0x123 0 [(0, 0x00A)]).mem.read 10 :=
  ⟨by decide, _, rfl, by decide⟩

/-- `ACC` changes by a Decrease, and the history by a Store. -/
theorem test_witness_AccumulatorAndHistoryWriters :
    (∃ t, step (stateAt 0 0 [(0, 0xC00)]) = .next t ∧ t.acc ≠ (stateAt 0 0 [(0, 0xC00)]).acc) ∧
    ∃ t, step (stateAt 1 0 []) = .next t ∧ t.hist ≠ (stateAt 1 0 []).hist :=
  ⟨⟨_, rfl, by decide⟩, _, rfl, by decide⟩

/-- A Store over its own word, fetched again through `PC` 519. -/
theorem test_witness_StoreSeenByNextFetch :
    (stateAt 0xE00 7 [(7, 0x007)]).mem.wf = true ∧ decode (stateAt 0xE00 7 [(7, 0x007)]).fetchWord = .store 7 ∧
    (∃ t, step (stateAt 0xE00 7 [(7, 0x007)]) = .next t) ∧ BitVec.ofNat 9 ((519#12).toNat % 512) = effectiveIndex 7 :=
  ⟨by decide, by decide, ⟨_, rfl⟩, by decide⟩

/-- For StepAccessesMemoryAsListed: another memory that agrees on the words an Add reads. -/
theorem test_witness_StepAccessesMemoryAsListed :
    stepAccesses (stateAt 1 0 [(0, 0x406), (6, 2)]) = [.read 0 0x406, .read 6 2] ∧
    Memory.read [(0, 0x406), (6, 2), (9, 9)] 0 = 0x406 ∧ Memory.read [(0, 0x406), (6, 2), (9, 9)] 6 = 2 := by decide

/-- For StoreWritesAccumulator, with an index other than the one stored to. -/
theorem test_witness_StoreWritesAccumulator :
    (stateAt 0x123 0 []).mem.wf = true ∧ (511 : Index) ≠ effectiveIndex 512 := by decide

/-- For BranchIfZeroTestsAccumulator: both clauses, the second with one high bit set. -/
theorem test_witness_BranchIfZeroTestsAccumulator :
    (stateAt 0 2 []).acc.toNat = 0 ∧ (stateAt 0x800 2 []).acc.toNat ≠ 0 := by decide

/-- For ClearZeroesAccumulator and DecreaseWrapsModulo4096: the first and last words of each range. -/
theorem test_witness_noncanonical_ranges :
    0xA00 ≤ (0xBFF#12).toNat ∧ (0xBFF#12).toNat ≤ 0xBFF ∧ 0xC00 ≤ (0xC00#12).toNat ∧ (0xC00#12).toNat ≤ 0xDFF := by decide

theorem test_witness_HaltLeavesPcAndReports :
    0xE00 ≤ (stateAt 9 4 [(4, 0xE00)]).fetchWord.toNat ∧ (stateAt 9 4 [(4, 0xDFF)]).fetchWord.toNat < 0xE00 := by decide

theorem test_witness_BootRunsWordZeroOfImage : ∃ m, Asm.assemble " halt".toList = .ok m := ⟨[(0, 0xE00)], by decide⟩

/-- For PowerOnNeedsResetRegisters: a block of each kind, the first made the second by `reset_registers`. -/
theorem test_witness_PowerOnNeedsResetRegisters :
    Block.powerOn.registersReset = false ∧
    ∃ b, transact Block.powerOn .resetRegisters = .next (b, .nothing) ∧ b.registersReset = true :=
  ⟨rfl, _, rfl, rfl⟩

/-- The lines `x:`, `y:` and a third that defines `x` again. -/
def xLine : Asm.Line := { label := some ['x'], cmd := some (.plain .halt) }
def yLine : Asm.Line := { label := some ['y'], cmd := some (.dir (.reserve 600)) }

/-- For PassOneRejectsFirstRedefinition: distinct labels, and a redefinition after distinct ones. -/
theorem test_witness_PassOneRejectsFirstRedefinition :
    (Asm.labelsOf [xLine, yLine]).Nodup ∧ xLine.label = some ['x'] ∧ ['x'] ∈ Asm.labelsOf [xLine, yLine] := by decide

theorem test_witness_LabelBoundToCounterBeforeItsLine :
    xLine.label = some ['x'] ∧ Asm.pass1 [] 0 ([yLine] ++ xLine :: []) = .ok [(['x'], 600), (['y'], 0)] := by decide

/-- An `end` line and a line after it that refers to no label. -/
def endLine : Asm.Line := { label := none, cmd := some (.dir .endOfProgram) }
def branchLine : Asm.Line := { label := none, cmd := some (.addressed .branch (.sym ['x'])) }

theorem test_witness_LinesAfterEndIgnoredByPassTwo :
    endLine.cmd = some (.dir .endOfProgram) ∧
    (Asm.pass2 [] [] 0 ([xLine] ++ endLine :: [branchLine])).toOption = some [(0, 0xE00)] := by decide

/-- For ReferencesAssembleAsBoundAddresses: a forward reference. -/
theorem test_witness_ReferencesAssembleAsBoundAddresses :
    Asm.pass1 [] 0 [branchLine, xLine] = .ok [(['x'], 1)] ∧
    Asm.assembleLines [branchLine, xLine] = .ok [(0, 0x601), (1, 0xE00)] := by decide

theorem test_witness_PassTwoRejectsFirstUndefinedLabel :
    Asm.pass2 [] [] 0 [yLine, branchLine] = .error { error := .undefinedLabel ['x'], rest := none } := by decide

/-- For ImageHoldsLastWordPlaced: an index no line writes, and a line whose index no later line writes. -/
theorem test_witness_ImageHoldsLastWordPlaced :
    Asm.pass2 [(['x'], 1)] [] 0 [branchLine, xLine] = .ok [(0, 0x601), (1, 0xE00)] ∧
    Asm.writesIndex 2 0 [branchLine, xLine] = false ∧ Asm.hasEnd [] = false ∧
    Asm.emit [(['x'], 1)] branchLine.cmd = .ok (some 0x601) ∧
    Asm.writesIndex (indexOf (Asm.counterAfter 0 [])) (Asm.counterAfter 0 ([] ++ [branchLine])) [xLine] = false := by
  decide

theorem test_witness_LinesPlaceTheirEncodings : Asm.Table.find [(['x'], 600)] ['x'] = some 600 := by decide

theorem test_witness_AssembledImageIsCanonical : ∃ m, Asm.assemble " org /600\n data 7".toList = .ok m :=
  ⟨[(88, 7)], by decide⟩

theorem test_witness_ParserReadsPrintedLines :
    [xLine, yLine, endLine, branchLine, { label := none, cmd := none }].all Asm.Line.spellable = true := by decide

/-- For CommentTextIgnored: no line before, and one; no text after, and some. -/
theorem test_witness_CommentTextIgnored :
    " ld /1\n".toList.getLast? = some '\n' ∧ ' ' ≠ '\n' ∧ '\n' ∉ "halt".toList ∧ '\n' ∉ "stop".toList ∧
    "\n halt".toList.head? = some '\n' ∧
    (Asm.parse " ld /1\n halt;stop".toList).toOption = (Asm.parse " ld /1\n halt".toList).toOption := by decide

/-- For LabelFieldIsNameWithOptionalColon: a name with and without colon, and a field that is no name. -/
theorem test_witness_LabelFieldIsNameWithOptionalColon :
    Asm.parseLabel { text := ['x', ':'], rest := [] } = .ok ['x'] ∧ Asm.parseLabel { text := ['x'], rest := [] } = .ok ['x'] ∧
    Asm.parseLabel { text := ['x', ':', ':'], rest := [] } = .error { error := .invalidLabelName, rest := some [] } := by
  decide

/-- For MnemonicsIgnoreCase: one mnemonic in two cases, and a token that is none. -/
theorem test_witness_MnemonicsIgnoreCase :
    ['L', 'd'].map Asm.lowerChar = ['l', 'D'].map Asm.lowerChar ∧
    Asm.lookupMnemonic ['L', 'd'] = some (.addressed .load) ∧
    ∀ p ∈ Asm.mnemonicTable, p.1 ≠ ['j', 'm', 'p'].map Asm.lowerChar := by decide

/-- For LiteralsRangeTo4095 and SlashMinusIsDistanceFrom4096: the values where their clauses meet. -/
theorem test_witness_literal_ranges :
    Asm.isDigits "04095".toList = true ∧ Asm.decimalValue "04095".toList ≤ 4095 ∧
    4095 < Asm.decimalValue "4096".toList ∧ Asm.decimalValue "1".toList = 1 ∧ Asm.decimalValue "512".toList = 512 := by
  decide

/-- For OperandKindsChecked: a token of each of the three forms. -/
theorem test_witness_OperandKindsChecked :
    Asm.classify { text := "5".toList, rest := [] } = .ok (.number 5) ∧
    Asm.classify { text := "/5".toList, rest := [] } = .ok (.address 5) ∧
    Asm.classify { text := "/done".toList, rest := [] } = .ok (.label "done".toList) := by decide

/-- For SurplusTokensRejected and the no-operand clause of OperandKindsChecked: accepted operands, one and none, and
tokens after them, well spelled (one of another kind, log entry 8) and not. -/
theorem test_witness_SurplusTokensRejected :
    Asm.parseMnemonic { text := ['l', 'd'], rest := [] } [{ text := ['/', '5'], rest := [] }] (.addressed .load) =
      .ok (.addressed .load (.lit 5)) ∧
    Asm.parseMnemonic { text := ['c', 'l', 'r'], rest := [] } [] (.plain .clear) = .ok (.plain .clear) ∧
    Asm.classify { text := ['6'], rest := ['6'] } = .ok (.number 6) ∧
    Asm.classify { text := ['5', 'x'], rest := [] } = .error { error := .parseError, rest := some [] } ∧
    parseErrorOf " ld /5 6" = some .syntaxError ∧ parseErrorOf " ld /5 6 5x" = some .parseError := by decide

/-- For OperandSpellingsClassified: a name, and tokens at the edges of the five spellings (D20). -/
theorem test_witness_OperandSpellingsClassified :
    Asm.isName "done".toList = true ∧
    ["5x", "-5", "/", "/-", "/5x", "/-x"].map (fun w => Asm.classify { text := w.toList, rest := [] }) =
      List.replicate 6 (.error { error := .parseError, rest := some [] }) := by decide

/-- For ParseFailurePointsIntoSource and StagesRaiseTheirOwnErrors. -/
theorem test_witness_stage_errors :
    Asm.parse " ld 5".toList = .error { error := .invalidParameter .direction, rest := some "5".toList } ∧
    Asm.pass1 [] 0 [xLine, xLine] = .error { error := .redefinedLabel ['x'], rest := none } ∧
    Asm.pass2 [] [] 0 [branchLine] = .error { error := .undefinedLabel ['x'], rest := none } := by decide

/-- For ParseFailurePointsIntoSource: on a second line, behind a label and before a comment (R146). -/
theorem test_failure_on_second_line :
    Asm.parse " halt\nx: ld 5 ;c".toList =
      .error { error := .invalidParameter .direction, rest := some "5 ;c".toList } := by decide

end Sys2Proof.Tests
end

/-! PROOFS. Execution does not depend on `HIST` (spec/00_scope.md R14, spec/10_state.md R33). -/

namespace Sys2Proof.Machine

/-- Another history before an instruction shows in the history after it and nowhere else: Store pushes onto the
history it finds, and every other instruction leaves it. -/
theorem after_otherHist (i : Instr) (s : State) (h : List Index) :
    ∃ h', after i { s with hist := h } = { after i s with hist := h' } := by
  cases i with
  | store a => exact ⟨keepNewest (indexOf a :: h) Config.historyDepth, rfl⟩
  | _ => exact ⟨h, rfl⟩

/-- The fetch looks at `PC` and memory only (R81). -/
theorem fetchWord_otherHist (s : State) (h : List Index) : State.fetchWord { s with hist := h } = s.fetchWord := rfl

theorem fetch_otherHist (s : State) (h : List Index) :
    State.fetch { s with hist := h } = { s.fetch with hist := h } := rfl

/-- The report looks at the fetched word only (R86). -/
theorem stepResult_otherHist (s : State) (h : List Index) : stepResult { s with hist := h } = stepResult s := by
  simp only [stepResult, fetchWord_otherHist]

/-- A run of any length answers a next state, and with another history one that differs in its history only. -/
theorem stepMany_otherHist (n : Nat) (s : State) (h : List Index) :
    ∃ t h', stepMany n s = .next t ∧ stepMany n { s with hist := h } = .next { t with hist := h' } := by
  induction n generalizing s h with
  | zero => exact ⟨s, h, rfl, rfl⟩
  | succ n ih =>
    obtain ⟨h₁, hstep⟩ := after_otherHist (decode s.fetchWord) s.fetch h
    simp only [stepMany_succ, fetchWord_otherHist, fetch_otherHist, hstep]
    exact ih _ h₁

/-- Settles O14, by induction on the number of steps: two runs that differ in their history keep differing there only,
and a report does not see it. -/
theorem historyNeverRead : Obligations.HistoryNeverRead := by
  intro n s h
  obtain ⟨t, h', hrun, hrun'⟩ := stepMany_otherHist n s h
  exact ⟨t, h', hrun, hrun', stepResult_otherHist t h'⟩

end Sys2Proof.Machine

/-! PROOFS. Store's effect and frame (spec/41_load_store.md R100). -/

namespace Sys2Proof.Machine

/-- Every read after a Store: the accumulator at the Store's index, the old word elsewhere (R43). -/
theorem read_after_store {s : State} (hwf : s.mem.wf = true) (a : Address) (j : Index) :
    (after (.store a) s).mem.read j = if j = effectiveIndex a then s.acc else s.mem.read j :=
  Memory.read_write hwf (effectiveIndex a) j s.acc

/-- Settles O19: one write to the memory, which leaves every other word, and one push onto the history, whose newest
entries the spec's `take` keeps. -/
theorem storeWritesAccumulator : Obligations.StoreWritesAccumulator := by
  intro a s hwf
  refine ⟨after (.store a) s, exec_eq _ s, ?word, ?otherWords, keepNewest_eq_take _ _, rfl, rfl, ?pc⟩
  case word => rw [read_after_store hwf, if_pos rfl]
  case otherWords => exact fun j hj => by rw [read_after_store hwf, if_neg hj]
  case pc => exact BitVec.toNat_add s.pc 1

end Sys2Proof.Machine

/-! PROOFS. The decoder and the encoder as functions of the opcode and address fields (spec/30_encoding.md R63–R65). -/

namespace Sys2Proof

/-- The opcode alone selects the arm of the decoder (R65). -/
theorem decode_of_opcode {w : Word} (op : Opcode) (h : w.toNat / 512 = op.toNat) :
    decode w = decodeFields op (addressField w) := by
  have hop : opcodeField w = op := BitVec.eq_of_toNat_eq ((opcodeField_toNat w).trans h)
  rw [decode_eq_decodeFields, hop]

/-- The address that opcodes 0–4 carry is bits 8–0 of the word, zero-extended (R65). -/
theorem zext12_addressField_toNat (w : Word) : (zext12 (addressField w)).toNat = w.toNat % 512 := by
  rw [zext12_toNat, addressField_toNat]

/-- Settles O1: each clause is the decoder's arm for one opcode, with the word's address field. -/
theorem opcodeFieldSelectsInstruction : Obligations.OpcodeFieldSelectsInstruction := by
  intro w
  have haddr := zext12_addressField_toNat w
  refine ⟨?store, ?load, ?add, ?branch, ?branchIfZero, ?clear, ?decrease, ?halt⟩
  case store => exact fun h => ⟨_, decode_of_opcode 0#3 h, haddr⟩
  case load => exact fun h => ⟨_, decode_of_opcode 1#3 h, haddr⟩
  case add => exact fun h => ⟨_, decode_of_opcode 2#3 h, haddr⟩
  case branch => exact fun h => ⟨_, decode_of_opcode 3#3 h, haddr⟩
  case branchIfZero => exact fun h => ⟨_, decode_of_opcode 4#3 h, haddr⟩
  case clear => exact decode_of_opcode 5#3
  case decrease => exact decode_of_opcode 6#3
  case halt => exact decode_of_opcode 7#3

/-- The opcode's place in a word as a shift of numbers (R64): no bit of it is lost. -/
theorem opcodeBits_toNat_eq_shiftLeft (op : Opcode) : (opcodeBits op).toNat = op.toNat <<< 9 := by
  rw [opcodeBits_toNat, Nat.shiftLeft_eq, Nat.mul_comm]

/-- R63's formula for an addressed instruction's word, as numbers. -/
theorem encodeAddressed_toNat_eq_or (op : Opcode) (a : Address) :
    (encodeAddressed op a).toNat = op.toNat <<< 9 ||| (a.toNat &&& 0o777) := by
  rw [encodeAddressed, BitVec.toNat_or, BitVec.toNat_and, opcodeBits_toNat_eq_shiftLeft]
  rfl

/-- Settles O2: R63's formula for the five addressed instructions, R64's for the other three; the mask is the
reduction modulo 512. -/
theorem encodedWordIsOpcodeAndLowNineBits : Obligations.EncodedWordIsOpcodeAndLowNineBits := by
  refine ⟨fun a => ⟨?store, ?load, ?add, ?branch, ?branchIfZero, ?mask⟩, ?clear, ?decrease, ?halt⟩
  case store => exact encodeAddressed_toNat_eq_or 0#3 a
  case load => exact encodeAddressed_toNat_eq_or 1#3 a
  case add => exact encodeAddressed_toNat_eq_or 2#3 a
  case branch => exact encodeAddressed_toNat_eq_or 3#3 a
  case branchIfZero => exact encodeAddressed_toNat_eq_or 4#3 a
  case mask => exact and_511 a.toNat
  case clear => exact opcodeBits_toNat_eq_shiftLeft 5#3
  case decrease => exact opcodeBits_toNat_eq_shiftLeft 6#3
  case halt => exact opcodeBits_toNat_eq_shiftLeft 7#3

end Sys2Proof

/-! PROOFS. The round trip for every instruction at once (spec/30_encoding.md R67). -/

namespace Sys2Proof

/-- Decoding gives every encoded well-formed instruction back (R67). -/
theorem decode_encode {i : Instr} (h : i.wf = true) : decode (encode i) = i := by
  cases i with
  | store a => exact Laws.RoundTrip.store a h
  | load a => exact Laws.RoundTrip.load a h
  | add a => exact Laws.RoundTrip.add a h
  | branch a => exact Laws.RoundTrip.branch a h
  | branchIfZero a => exact Laws.RoundTrip.branchIfZero a h
  | clear => exact Laws.RoundTrip.clear h
  | decrease => exact Laws.RoundTrip.decrease h
  | halt => exact Laws.RoundTrip.halt h

end Sys2Proof

/-! PROOFS. The fetch, the instruction a step runs, and what the step reports (spec/40_step_cycle.md R81, R82, R86). -/

namespace Sys2Proof.Machine

/-- The fetched word through R81's index, `PC & 0x1FF` as a number. -/
theorem fetchWord_eq_read (s : State) : s.fetchWord = s.mem.read (BitVec.ofNat 9 (s.pc.toNat % 512)) := by
  rw [State.fetchWord, State.fetchIndex, indexOf_eq_ofNat]

/-- A step whose fetched word encodes a well-formed instruction runs that instruction (R82). -/
theorem step_of_fetchWord_encode {s : State} {i : Instr} (hwf : i.wf = true) (hw : s.fetchWord = encode i) :
    step s = exec i { s with ir := encode i } := by
  have hfetch : s.fetch = { s with ir := encode i } := by rw [← hw]; rfl
  rw [step, State.fetch_ir, hw, decode_encode hwf, hfetch]

/-- Settles O6: a step is `exec` after the fetch by definition, its index read as a number; a well-formed instruction
survives its encoding. -/
theorem stepRunsDecodedInstruction : Obligations.StepRunsDecodedInstruction := by
  intro s
  rw [← fetchWord_eq_read]
  exact ⟨rfl, fun i hwf hw => step_of_fetchWord_encode hwf hw⟩

/-- Every instruction but Halt reports `Continue` (R86). -/
theorem resultOf_of_ne_halt {i : Instr} (h : i ≠ .halt) : resultOf i = .continue := by
  cases i with
  | halt => exact absurd rfl h
  | _ => rfl

/-- Settles O9: the report is `resultOf` of the fetched word's instruction. -/
theorem haltedReportedExactlyForHalt : Obligations.HaltedReportedExactlyForHalt := by
  intro s
  rw [← fetchWord_eq_read]
  exact ⟨_, stepResult s, stepReporting_eq s, step_eq s, resultOf_eq_halted_iff.2, resultOf_of_ne_halt⟩

end Sys2Proof.Machine

/-! PROOFS. Load's effect and frame (spec/41_load_store.md R101). -/

namespace Sys2Proof.Machine

/-- The operand word through the index as a number, the address modulo 512 (R41, R44). -/
theorem operandWord_eq_read (s : State) (a : Address) :
    s.operandWord a = s.mem.read (BitVec.ofNat 9 (a.toNat % 512)) := by
  rw [State.operandWord_eq, effectiveIndex, indexOf_eq_ofNat]

/-- Settles O20: `ACC` is the operand word, which `Z` then tests; every other field but `PC` is as before. -/
theorem loadCopiesMemoryWord : Obligations.LoadCopiesMemoryWord := by
  intro a s
  rw [← operandWord_eq_read]
  refine ⟨after (.load a) s, exec_eq _ s, rfl, ?zero, ?pc, fun _ => rfl, rfl, rfl⟩
  case zero => exact State.zero_iff _
  case pc => exact BitVec.toNat_add s.pc 1

end Sys2Proof.Machine

/-! PROOFS. Add's effect and frame (spec/42_arithmetic.md R110). -/

namespace Sys2Proof.Machine

/-- A sum of two words stays below twice 4096, so it wraps to zero at 0 and 4096 only (R110). -/
theorem add_eq_zero_iff_toNat (x y : Word) : x + y = 0 ↔ x.toNat + y.toNat = 0 ∨ x.toNat + y.toNat = 4096 := by
  have hx : x.toNat < 4096 := x.isLt
  have hy : y.toNat < 4096 := y.isLt
  have hsum : x + y = 0 ↔ (x.toNat + y.toNat) % 4096 = 0 := by rw [← BitVec.toNat_inj, BitVec.toNat_add]; rfl
  rw [hsum]
  omega

/-- Settles O21: `ACC` is the word sum, which `Z` then tests; every other field but `PC` is as before. -/
theorem addWrapsModulo4096 : Obligations.AddWrapsModulo4096 := by
  intro a s
  rw [← operandWord_eq_read]
  refine ⟨after (.add a) s, exec_eq _ s, ?acc, ?zero, ?pc, fun _ => rfl, rfl, rfl⟩
  case acc => exact BitVec.toNat_add s.acc (s.operandWord a)
  case zero => exact (State.zero_iff _).trans (add_eq_zero_iff_toNat s.acc (s.operandWord a))
  case pc => exact BitVec.toNat_add s.pc 1

end Sys2Proof.Machine

/-! PROOFS. Branch and BranchIfZero, their target and their frame (spec/43_control.md R120, R121). -/

namespace Sys2Proof.Machine

/-- The `PC` a taken branch loads, as a number: the address modulo 512 (R123). -/
theorem zext12_indexOf_toNat (a : Address) : (zext12 (indexOf a)).toNat = a.toNat % 512 := by
  rw [zext12_toNat, indexOf_toNat]

/-- Settles O24: `PC` is the target, and every other field is as before. -/
theorem branchLoadsTarget : Obligations.BranchLoadsTarget := by
  intro a s
  exact ⟨after (.branch a) s, exec_eq _ s, zext12_indexOf_toNat a, rfl, rfl, rfl, fun _ => rfl⟩

/-- Settles O25: the word test on `ACC` is the test of its number, and decides between the target and the increment;
every other field is as before. -/
theorem branchIfZeroTestsAccumulator : Obligations.BranchIfZeroTestsAccumulator := by
  intro a s
  have hzero : s.acc = 0 ↔ s.acc.toNat = 0 := BitVec.toNat_inj.symm
  refine ⟨after (.branchIfZero a) s, exec_eq _ s, ?taken, ?notTaken, rfl, rfl, rfl, fun _ => rfl⟩
  case taken =>
    intro h
    rw [after_branchIfZero_taken a (hzero.2 h)]
    exact zext12_indexOf_toNat a
  case notTaken =>
    intro h
    rw [after_branchIfZero_not_taken a (mt hzero.1 h)]
    exact BitVec.toNat_add s.pc 1

end Sys2Proof.Machine

/-! PROOFS. Mnemonics and their table (spec/44_asm_parser.md R137, R138). -/

namespace Sys2Proof.Asm

/-- Whether a token spells a mnemonic depends on its letters only, not on their case (R137). -/
theorem lookupMnemonic_of_sameLetters {x y : List Char} (h : x.map lowerChar = y.map lowerChar) :
    lookupMnemonic x = lookupMnemonic y := by
  rw [lookupMnemonic, lookupMnemonic, h]

/-- A token that is no row's name spells no mnemonic (R137). -/
theorem lookupMnemonic_eq_none {x : List Char} (h : ∀ k, (x.map lowerChar, k) ∉ mnemonicTable) :
    lookupMnemonic x = none := by
  refine List.lookup_eq_none_iff.2 fun row hrow => bne_iff_ne.2 fun heq => h row.2 ?_
  rwa [heq]

theorem parseCommand_known {m : Token} {k : Mnemonic} (h : lookupMnemonic m.text = some k) (ops : List Token) :
    parseCommand (m :: ops) = (parseMnemonic m ops k).map some := by
  simp only [parseCommand, h]

theorem parseCommand_unknown {m : Token} (h : lookupMnemonic m.text = none) (ops : List Token) :
    parseCommand (m :: ops) = failAt m (.invalidInstruction m.text) := by
  simp only [parseCommand, h]

/-- Settles O50: the table is consulted with the lower-case text only; a text it does not hold fails at the mnemonic. -/
theorem mnemonicsIgnoreCase : Obligations.MnemonicsIgnoreCase := by
  refine ⟨?rows, ?anyCase, ?unknown⟩
  case rows => decide
  case anyCase =>
    intro m m' ops k hsame hk
    exact parseCommand_known ((lookupMnemonic_of_sameLetters hsame).symm.trans hk) ops
  case unknown => exact fun m ops h => parseCommand_unknown (lookupMnemonic_eq_none h) ops

end Sys2Proof.Asm

/-! PROOFS. What a line parses to is decided by the texts of its tokens: where they stand in the source shows in a failure
only (spec/44_asm_parser.md R146). A parse up to its failures is its `toOption`. -/

namespace Sys2Proof.Asm

/-- The token's text at no position: what the parser's answer, up to a failure's payload, can depend on. -/
def Token.unplaced (t : Token) : Token := { text := t.text, rest := [] }

@[simp] theorem Token.unplaced_text (t : Token) : t.unplaced.text = t.text := rfl

theorem map_toOption {α β : Type} (x : Except Failure α) (g : α → β) : (x.map g).toOption = x.toOption.map g := by
  cases x <;> rfl

theorem bind_toOption {α β : Type} (x : Except Failure α) (g : α → Except Failure β) :
    (x.bind g).toOption = x.toOption.bind fun a => (g a).toOption := by
  cases x <;> rfl

theorem parseLiteral_unplaced (t : Token) (ds : List Char) :
    (parseLiteral t.unplaced ds).toOption = (parseLiteral t ds).toOption := by
  unfold parseLiteral
  split <;> rfl

theorem parseLabel_unplaced (t : Token) : (parseLabel t.unplaced).toOption = (parseLabel t).toOption := by
  unfold parseLabel
  rw [t.unplaced_text]
  split <;> rfl

theorem classifySlash_unplaced (t : Token) (body : List Char) :
    (classifySlash t.unplaced body).toOption = (classifySlash t body).toOption := by
  unfold classifySlash
  split_ifs
  · simp only [map_toOption, parseLiteral_unplaced]
  · rfl
  · split
    · split_ifs
      · simp only [map_toOption, parseLiteral_unplaced]
      · rfl
    · rfl

theorem classify_unplaced (t : Token) : (classify t.unplaced).toOption = (classify t).toOption := by
  obtain ⟨text, rest⟩ := t
  by_cases hslash : ∃ body, text = '/' :: body
  · obtain ⟨body, rfl⟩ := hslash
    exact classifySlash_unplaced { text := '/' :: body, rest := rest } body
  · have hne : ∀ body, text ≠ '/' :: body := fun body h => hslash ⟨body, h⟩
    rw [classify_of_not_slash hne, classify_of_not_slash hne, Token.unplaced_text]
    split_ifs
    · simp only [map_toOption, parseLiteral_unplaced]
    · rfl
    · rfl

theorem asDirection_unplaced (t : Token) (form : OperandForm) :
    (asDirection t.unplaced form).toOption = (asDirection t form).toOption := by
  cases form <;> rfl

theorem asAddress_unplaced (t : Token) (form : OperandForm) :
    (asAddress t.unplaced form).toOption = (asAddress t form).toOption := by
  cases form <;> rfl

theorem asNumber_unplaced (t : Token) (form : OperandForm) :
    (asNumber t.unplaced form).toOption = (asNumber t form).toOption := by
  cases form <;> rfl

/-- Surplus tokens are accepted exactly when there are none (R144). -/
theorem checkSurplus_toOption (ts : List Token) :
    (checkSurplus ts).toOption = if ts.isEmpty then some () else none := by
  cases h : checkSurplus ts with
  | ok u => rw [checkSurplus_ok h]; rfl
  | error f =>
    cases ts with
    | nil => cases h
    | cons t ts => rfl

theorem checkSurplus_unplaced (ts : List Token) :
    (checkSurplus (ts.map Token.unplaced)).toOption = (checkSurplus ts).toOption := by
  rw [checkSurplus_toOption, checkSurplus_toOption, List.isEmpty_map]

/-- An operand is read by its spelling, then its kind, then the absence of surplus tokens (R145). -/
theorem parseOperand_cons_eq_bind {α : Type} (m t : Token) (kind : Token → OperandForm → Except Failure α)
    (more : List Token) :
    parseOperand m kind (t :: more) =
      (classify t).bind fun form => (kind t form).bind fun v => (checkSurplus more).map fun _ => v := by
  rw [parseOperand]
  cases classify t with
  | error f => rfl
  | ok form =>
    dsimp only [Except.bind]
    cases kind t form with
    | error f => rfl
    | ok v => cases checkSurplus more <;> rfl

theorem parseOperand_unplaced {α : Type} {kind : Token → OperandForm → Except Failure α}
    (hkind : ∀ t form, (kind t.unplaced form).toOption = (kind t form).toOption) (m : Token) (ops : List Token) :
    (parseOperand m.unplaced kind (ops.map Token.unplaced)).toOption = (parseOperand m kind ops).toOption := by
  cases ops with
  | nil => rfl
  | cons t more =>
    simp only [List.map_cons, parseOperand_cons_eq_bind, bind_toOption, map_toOption, classify_unplaced, hkind,
      checkSurplus_unplaced]

theorem parseMnemonic_unplaced (m : Token) (ops : List Token) (k : Mnemonic) :
    (parseMnemonic m.unplaced (ops.map Token.unplaced) k).toOption = (parseMnemonic m ops k).toOption := by
  cases k <;> simp only [parseMnemonic, map_toOption]
  case addressed => rw [parseOperand_unplaced asDirection_unplaced]
  case org => rw [parseOperand_unplaced asAddress_unplaced]
  case data => rw [parseOperand_unplaced asNumber_unplaced]
  case reserve => rw [parseOperand_unplaced asNumber_unplaced]
  case plain => rw [checkSurplus_unplaced]
  case endOfProgram => rw [checkSurplus_unplaced]

theorem parseCommand_unplaced (ts : List Token) :
    (parseCommand (ts.map Token.unplaced)).toOption = (parseCommand ts).toOption := by
  cases ts with
  | nil => rfl
  | cons m ops =>
    rw [List.map_cons]
    cases h : lookupMnemonic m.text with
    | none => rw [parseCommand_unknown h, parseCommand_unknown (m := m.unplaced) h]; rfl
    | some k =>
      rw [parseCommand_known h, parseCommand_known (m := m.unplaced) h, map_toOption, map_toOption,
        parseMnemonic_unplaced]

/-- A labelled line is read by its label field, then its command (R145). -/
theorem parseTokens_labelled_eq_bind (t : Token) (more : List Token) :
    parseTokens true (t :: more) =
      (parseLabel t).bind fun name => (parseCommand more).map fun c => { label := some name, cmd := c } := by
  rw [parseTokens]
  cases parseLabel t <;> rfl

theorem parseTokens_unplaced (labelled : Bool) (ts : List Token) :
    (parseTokens labelled (ts.map Token.unplaced)).toOption = (parseTokens labelled ts).toOption := by
  match labelled, ts with
  | true, t :: more =>
    simp only [List.map_cons, parseTokens_labelled_eq_bind, bind_toOption, map_toOption, parseLabel_unplaced,
      parseCommand_unplaced]
  | true, [] => rfl
  | false, ts => simp only [parseTokens, map_toOption, parseCommand_unplaced]

/-- Tokens of the same texts parse to the same line, or both fail. -/
theorem parseTokens_of_sameTexts {ts ts' : List Token} (h : ts.map (·.text) = ts'.map (·.text)) (labelled : Bool) :
    (parseTokens labelled ts).toOption = (parseTokens labelled ts').toOption := by
  have hunplaced : ts.map Token.unplaced = ts'.map Token.unplaced := by
    have hplaced := congrArg (List.map fun text => ({ text := text, rest := [] } : Token)) h
    rwa [List.map_map, List.map_map] at hplaced
  rw [← parseTokens_unplaced labelled ts, hunplaced, parseTokens_unplaced]

end Sys2Proof.Asm

/-! PROOFS. A line is read up to its newline or its comment (spec/44_asm_parser.md R131, R132). -/

namespace Sys2Proof.Asm

/-- The line's text ends here: at the end of the source, a newline or a comment (R131, R132). -/
def endsText (back : Source) : Prop := ∀ c ∈ back.head?, c = '\n' ∨ c = ';'

theorem endsText_nil : endsText [] := by simp [endsText]

theorem endsText_comment (cs : Source) : endsText (';' :: cs) := by simp [endsText]

theorem endsText_newline (cs : Source) : endsText ('\n' :: cs) := by simp [endsText]

theorem lexLine_of_endsText {back : Source} (h : endsText back) (p : Option Token) : lexLine p back = p.toList := by
  cases back with
  | nil => cases p <;> rfl
  | cons c cs => cases p <;> exact if_pos (h c rfl)

theorem lexLine_of_isSpace {c : Char} (h : isSpace c = true) (p : Option Token) (cs : Source) :
    lexLine p (c :: cs) = p.toList ++ lexLine none cs := by
  have hne : ¬ (c = '\n' ∨ c = ';') := by
    rintro (rfl | rfl) <;> exact absurd h (by decide)
  simp [lexLine, hne, h]

theorem toList_map_text (p : Option Token) : p.toList.map (·.text) = (p.map (·.text)).toList := by
  cases p <;> rfl

/-- The texts of a line's tokens do not depend on what stands behind the end of its text. -/
theorem lexLine_texts_append {back : Source} (hback : endsText back) (l : Source) {p p' : Option Token}
    (hp : p.map (·.text) = p'.map (·.text)) :
    (lexLine p (l ++ back)).map (·.text) = (lexLine p' l).map (·.text) := by
  induction l generalizing p p' with
  | nil => rw [List.nil_append, lexLine_of_endsText hback, toList_map_text, hp, ← toList_map_text,
      lexLine_of_endsText endsText_nil]
  | cons c cs ih =>
    rw [List.cons_append]
    by_cases hend : c = '\n' ∨ c = ';'
    · have hends : ∀ rest, endsText (c :: rest) := fun rest x hx => by cases hx; exact hend
      rw [lexLine_of_endsText (hends _), lexLine_of_endsText (hends _), toList_map_text, hp, ← toList_map_text]
    · by_cases hspace : isSpace c = true
      · rw [lexLine_of_isSpace hspace, lexLine_of_isSpace hspace, List.map_append, List.map_append, toList_map_text,
          hp, ← toList_map_text, ih rfl]
      · have htoken : isTokenChar c = true :=
          isTokenChar_iff.2 ⟨by simpa using hspace, fun h => hend (.inr h), fun h => hend (.inl h)⟩
        rw [lexLine_tokenChar htoken, lexLine_tokenChar htoken]
        cases p with
        | none =>
          cases p' with
          | none => exact ih rfl
          | some t' => cases hp
        | some t =>
          cases p' with
          | none => cases hp
          | some t' =>
            have htext : t.text = t'.text := Option.some.inj hp
            exact ih (by simp [htext])

theorem hasLabelField_append {back : Source} (hback : endsText back) (l : Source) :
    hasLabelField (l ++ back) = hasLabelField l := by
  cases l with
  | cons c cs => rfl
  | nil =>
    cases back with
    | nil => rfl
    | cons c cs => rcases hback c rfl with rfl | rfl <;> rfl

/-- What stands behind the end of a line's text changes nothing of what the line parses to (R132). -/
theorem parseLine_append {back : Source} (hback : endsText back) (l : Source) :
    (parseLine (l ++ back)).toOption = (parseLine l).toOption := by
  rw [parseLine, parseLine, hasLabelField_append hback]
  exact parseTokens_of_sameTexts (lexLine_texts_append hback l rfl) _

end Sys2Proof.Asm

/-! PROOFS. A source parses as its parts before and after a line's start or end do (spec/44_asm_parser.md R131, R145). -/

namespace Sys2Proof.Asm

theorem parseLines_cons_eq_bind (l : Source) (ls : List Source) :
    parseLines (l :: ls) = (parseLine l).bind fun ln => (parseLines ls).map fun lns => ln :: lns := by
  rw [parseLines]
  cases parseLine l <;> rfl

/-- The lines of a source before a newline, and those behind it (R131). -/
theorem lineStarts_append_newline (fresh : Bool) (front rest : Source) :
    lineStarts fresh (front ++ '\n' :: rest) =
      (lineStarts fresh front).map (· ++ '\n' :: rest) ++ lineStarts true rest := by
  induction front generalizing fresh with
  | nil => simp [lineStarts]
  | cons c cs ih =>
    rw [List.cons_append, lineStarts, lineStarts]
    split_ifs
    · exact ih true
    · rw [ih false]; rfl
    · exact ih false

/-- The lines before a newline and the source behind it parse independently (R145). -/
theorem parse_append_newline (front rest : Source) :
    (parse (front ++ '\n' :: rest)).toOption =
      (parse front).toOption.bind fun lns => (parse rest).toOption.map fun more => lns ++ more := by
  rw [parse, parse, parse, lineStarts_append_newline]
  induction lineStarts true front with
  | nil => simp [parseLines, Except.toOption]
  | cons l ls ih =>
    simp only [List.map_cons, List.cons_append, parseLines_cons_eq_bind, bind_toOption, map_toOption,
      parseLine_append (endsText_newline rest), ih]
    cases (parseLine l).toOption <;> cases (parseLines ls).toOption <;> simp [Function.comp_def]

theorem lineStarts_false_of_no_newline {l : Source} (h : '\n' ∉ l) : lineStarts false l = [] := by
  induction l with
  | nil => rfl
  | cons c cs ih =>
    simp only [List.mem_cons, not_or] at h
    simp [lineStarts, Ne.symm h.1, ih h.2]

/-- A line with a character in it is one line, whether a newline or nothing is behind it (R131). -/
theorem lineStarts_line_append {l back : Source} (hl : '\n' ∉ l) (hne : l ≠ [])
    (hback : back = [] ∨ back.head? = some '\n') :
    lineStarts true (l ++ back) = (l ++ back) :: lineStarts true back := by
  rcases hback with rfl | hback
  · cases l with
    | nil => exact absurd rfl hne
    | cons c cs =>
      simp only [List.mem_cons, not_or] at hl
      simp [lineStarts, Ne.symm hl.1, lineStarts_false_of_no_newline hl.2]
  · obtain ⟨rest, rfl⟩ := List.head?_eq_some_iff.1 hback
    rw [lineStarts_true_append hl hne]
    simp [lineStarts]

/-- A line's parse, and that of the lines behind it (R145). -/
theorem parse_line_append {l back : Source} (hl : '\n' ∉ l) (hne : l ≠ [])
    (hback : back = [] ∨ back.head? = some '\n') :
    (parse (l ++ back)).toOption =
      (parseLine l).toOption.bind fun ln => (parse back).toOption.map fun lns => ln :: lns := by
  have hends : endsText back := by rcases hback with rfl | h <;> simp [endsText, *]
  rw [parse, lineStarts_line_append hl hne hback, parseLines_cons_eq_bind, bind_toOption,
    parseLine_append hends]
  simp only [map_toOption, parse]

/-- A comment changes nothing of the parse of the source from its line on (R132). -/
theorem parse_comment {c : Char} {text comment back : Source} (hline : '\n' ∉ c :: text) (hcomment : '\n' ∉ comment)
    (hback : back = [] ∨ back.head? = some '\n') :
    (parse (c :: text ++ ';' :: comment ++ back)).toOption = (parse (c :: text ++ back)).toOption := by
  have hcommented : '\n' ∉ c :: text ++ ';' :: comment := by
    simpa [List.mem_append, not_or, hcomment] using hline
  rw [parse_line_append hcommented (by simp) hback, parse_line_append hline (by simp) hback,
    parseLine_append (endsText_comment comment)]

/-- Behind whole lines, sources of the same parse have the same parse (R145). -/
theorem parse_behind_lines {front rest rest' : Source} (hfront : front = [] ∨ front.getLast? = some '\n')
    (h : (parse rest).toOption = (parse rest').toOption) :
    (parse (front ++ rest)).toOption = (parse (front ++ rest')).toOption := by
  rcases hfront with rfl | hfront
  · exact h
  · obtain ⟨before, rfl⟩ := List.getLast?_eq_some_iff.1 hfront
    simp only [List.append_assoc, List.singleton_append, parse_append_newline, h]

/-- Settles O48: the line's tokens end at the comment, and the lines before it parse on their own. -/
theorem commentTextIgnored : Obligations.CommentTextIgnored := by
  intro front c text comment back hfront hc htext hcomment hback
  have hline : '\n' ∉ c :: text := List.not_mem_cons_of_ne_of_not_mem hc.symm htext
  exact ⟨lexLine_texts_append (endsText_comment comment) (c :: text) rfl,
    parse_behind_lines hfront (parse_comment hline hcomment hback)⟩

end Sys2Proof.Asm

/-! PROOFS. The equations of the passes (spec/45_asm_passes.md R162–R172). -/

namespace Sys2Proof.Asm

open Sys2Proof.Machine (Memory)

/-- Pass 1 handles a line's label, then advances by its command (R162, R163). -/
theorem pass1_cons_eq_bind (table : Table) (c : Address) (ln : Line) (more : List Line) :
    pass1 table c (ln :: more) =
      (bindLabel table c ln.label).bind fun table' => pass1 table' (advance c ln.cmd) more := by
  rw [pass1]
  cases bindLabel table c ln.label <;> rfl

/-- An `end` line ends pass 2 (R172). -/
theorem pass2_cons_end {ln : Line} (h : ln.cmd = some (.dir .endOfProgram)) (table : Table) (image : Memory)
    (c : Address) (more : List Line) : pass2 table image c (ln :: more) = .ok image :=
  if_pos h

/-- Pass 2 places another line's word, then advances by its command (R166–R168). -/
theorem pass2_cons_eq_bind {ln : Line} (h : ln.cmd ≠ some (.dir .endOfProgram)) (table : Table) (image : Memory)
    (c : Address) (more : List Line) :
    pass2 table image c (ln :: more) =
      (emit table ln.cmd).bind fun w => pass2 table (place image c w) (advance c ln.cmd) more := by
  rw [pass2, if_neg h]
  cases emit table ln.cmd <;> rfl

/-- Settles O37: `org` sets the counter, an `end` and a line with no command leave it, and every other command is a sum
of 12-bit words. -/
theorem counterAdvancesByCommand : Obligations.CounterAdvancesByCommand := by
  intro c
  have hnext : (c + 1).toNat = (c.toNat + 1) % 4096 := BitVec.toNat_add c 1
  refine ⟨fun _ => rfl, ?reserve, ?addressed, ?plain, ?data, rfl, rfl⟩
  case reserve => exact fun n => BitVec.toNat_add c n
  case addressed => exact fun _ _ => hnext
  case plain => exact fun _ => hnext
  case data => exact fun _ => hnext

/-- Settles O40, by induction on the lines before the `end`: either one of them is an `end` and ends both runs, or both
runs go on behind it with the same image and counter. -/
theorem linesAfterEndIgnoredByPassTwo : Obligations.LinesAfterEndIgnoredByPassTwo := by
  intro table image counter before after ln hend
  induction before generalizing image counter with
  | nil => exact pass2_cons_end hend table image counter after
  | cons b bs ih =>
    rw [List.cons_append]
    by_cases hb : b.cmd = some (.dir .endOfProgram)
    · rw [pass2_cons_end hb, pass2_cons_end hb]
    · simp only [pass2_cons_eq_bind hb, ih]

end Sys2Proof.Asm

/-! PROOFS. Which errors each stage raises (spec/45_asm_passes.md R176): the stages are binds of smaller checks, so the
errors of the whole are those of the checks. -/

namespace Sys2Proof.Asm

open Sys2Proof.Machine (Memory)

/-- The seven errors that R176 gives to the parser. -/
def AsmError.ofParser : AsmError → Bool
  | .parseError => true
  | .invalidLabelName => true
  | .missingParameter => true
  | .invalidParameter _ => true
  | .invalidNumber => true
  | .invalidInstruction _ => true
  | .redefinedLabel _ => false
  | .undefinedLabel _ => false
  | .syntaxError => true

theorem AsmError.not_passError_of_ofParser {e : AsmError} (h : e.ofParser = true) :
    (∀ n, e ≠ .redefinedLabel n) ∧ ∀ n, e ≠ .undefinedLabel n := by
  refine ⟨?redefined, ?undefined⟩
  case redefined => rintro n rfl; cases h
  case undefined => rintro n rfl; cases h

/-- Every failure of `x` carries an error with the property `P`. -/
def FailsOnlyWith {α : Type} (P : AsmError → Prop) (x : Except Failure α) : Prop := ∀ f, x = .error f → P f.error

namespace FailsOnlyWith

variable {α β : Type} {P : AsmError → Prop}

theorem ok (a : α) : FailsOnlyWith P (.ok a : Except Failure α) := nofun

theorem failAt (t : Token) {e : AsmError} (h : P e) : FailsOnlyWith P (failAt t e : Except Failure α) := by
  rintro f ⟨⟩
  exact h

theorem bind {x : Except Failure α} {g : α → Except Failure β} (hx : FailsOnlyWith P x)
    (hg : ∀ a, FailsOnlyWith P (g a)) : FailsOnlyWith P (x.bind g) := by
  cases x with
  | error f => rintro _ ⟨⟩; exact hx f rfl
  | ok a => exact hg a

theorem map {x : Except Failure α} (hx : FailsOnlyWith P x) (g : α → β) : FailsOnlyWith P (x.map g) :=
  fun f h => hx f (map_error h)

end FailsOnlyWith

section Parser

/-- A parser check, which raises none of the passes' errors. -/
abbrev ParserCheck {α : Type} (x : Except Failure α) : Prop := FailsOnlyWith (·.ofParser = true) x

theorem parserCheck_classify (t : Token) : ParserCheck (classify t) := by
  intro f h
  rcases classify_error h with rfl | rfl <;> rfl

theorem parserCheck_asDirection (t : Token) (form : OperandForm) : ParserCheck (asDirection t form) := by
  cases form with
  | number n => exact .failAt t rfl
  | address a => exact .ok _
  | label n => exact .ok _

theorem parserCheck_asAddress (t : Token) (form : OperandForm) : ParserCheck (asAddress t form) := by
  cases form with
  | number n => exact .failAt t rfl
  | address a => exact .ok _
  | label n => exact .failAt t rfl

theorem parserCheck_asNumber (t : Token) (form : OperandForm) : ParserCheck (asNumber t form) := by
  cases form with
  | number n => exact .ok _
  | address a => exact .failAt t rfl
  | label n => exact .failAt t rfl

theorem checkSpellings_cons_eq_bind (t : Token) (ts : List Token) :
    checkSpellings (t :: ts) = (classify t).bind fun _ => checkSpellings ts := by
  rw [checkSpellings]
  cases classify t <;> rfl

theorem checkSurplus_cons_eq_bind (t : Token) (ts : List Token) :
    checkSurplus (t :: ts) = (checkSpellings (t :: ts)).bind fun _ => failAt t .syntaxError := by
  rw [checkSurplus]
  cases checkSpellings (t :: ts) <;> rfl

theorem parserCheck_checkSpellings (ts : List Token) : ParserCheck (checkSpellings ts) := by
  induction ts with
  | nil => exact .ok ()
  | cons t ts ih =>
    rw [checkSpellings_cons_eq_bind]
    exact (parserCheck_classify t).bind fun _ => ih

theorem parserCheck_checkSurplus (ts : List Token) : ParserCheck (checkSurplus ts) := by
  cases ts with
  | nil => exact .ok ()
  | cons t ts =>
    rw [checkSurplus_cons_eq_bind]
    exact (parserCheck_checkSpellings _).bind fun _ => .failAt t rfl

theorem parserCheck_parseOperand {α : Type} {kind : Token → OperandForm → Except Failure α}
    (hkind : ∀ t form, ParserCheck (kind t form)) (m : Token) (ops : List Token) :
    ParserCheck (parseOperand m kind ops) := by
  cases ops with
  | nil => exact .failAt m rfl
  | cons t more =>
    rw [parseOperand_cons_eq_bind]
    exact (parserCheck_classify t).bind fun form =>
      (hkind t form).bind fun _ => (parserCheck_checkSurplus more).map _

theorem parserCheck_parseMnemonic (m : Token) (ops : List Token) (k : Mnemonic) :
    ParserCheck (parseMnemonic m ops k) := by
  cases k with
  | addressed op => exact (parserCheck_parseOperand parserCheck_asDirection m ops).map _
  | plain op => exact (parserCheck_checkSurplus ops).map _
  | org => exact (parserCheck_parseOperand parserCheck_asAddress m ops).map _
  | data => exact (parserCheck_parseOperand parserCheck_asNumber m ops).map _
  | reserve => exact (parserCheck_parseOperand parserCheck_asNumber m ops).map _
  | endOfProgram => exact (parserCheck_checkSurplus ops).map _

theorem parserCheck_parseCommand (ts : List Token) : ParserCheck (parseCommand ts) := by
  cases ts with
  | nil => exact .ok none
  | cons m ops =>
    cases h : lookupMnemonic m.text with
    | none => rw [parseCommand_unknown h]; exact .failAt m rfl
    | some k => rw [parseCommand_known h]; exact (parserCheck_parseMnemonic m ops k).map _

theorem parserCheck_parseLabel (t : Token) : ParserCheck (parseLabel t) := by
  rw [parseLabel]
  split_ifs
  · exact .ok _
  · exact .failAt t rfl

theorem parserCheck_parseTokens (labelled : Bool) (ts : List Token) : ParserCheck (parseTokens labelled ts) := by
  match labelled, ts with
  | true, t :: more =>
    rw [parseTokens_labelled_eq_bind]
    exact (parserCheck_parseLabel t).bind fun _ => (parserCheck_parseCommand more).map _
  | true, [] => exact .ok _
  | false, ts => exact (parserCheck_parseCommand ts).map _

/-- The parser raises only its own errors: its failure is some line's. -/
theorem parserCheck_parse (src : Source) : ParserCheck (parse src) := by
  intro f h
  obtain ⟨-, line, -, -, -, hline⟩ := parseLines_error h
  exact parserCheck_parseTokens _ _ f hline

end Parser

/-- A label already in the table is `RedefinedLabel` (R162). -/
theorem bindLabel_failsOnlyWith (table : Table) (c : Address) (label : Option LabelName) :
    FailsOnlyWith (fun e => ∃ n, e = .redefinedLabel n) (bindLabel table c label) := by
  intro f h
  cases label with
  | none => cases h
  | some n =>
    rw [bindLabel] at h
    cases hfind : table.find n with
    | none => rw [hfind] at h; cases h
    | some a => rw [hfind] at h; cases h; exact ⟨n, rfl⟩

theorem pass1_failsOnlyWith (table : Table) (c : Address) (lines : List Line) :
    FailsOnlyWith (fun e => ∃ n, e = .redefinedLabel n) (pass1 table c lines) := by
  induction lines generalizing table c with
  | nil => exact .ok table
  | cons ln more ih =>
    rw [pass1_cons_eq_bind]
    exact (bindLabel_failsOnlyWith table c ln.label).bind fun table' => ih table' _

/-- A label missing from the table is `UndefinedLabel` (R168). -/
theorem emit_failsOnlyWith (table : Table) (cmd : Option Command) :
    FailsOnlyWith (fun e => ∃ n, e = .undefinedLabel n) (emit table cmd) := by
  intro f h
  obtain ⟨-, n, -, -, rfl⟩ := emit_error_iff.1 h
  exact ⟨n, rfl⟩

theorem pass2_failsOnlyWith (table : Table) (image : Memory) (c : Address) (lines : List Line) :
    FailsOnlyWith (fun e => ∃ n, e = .undefinedLabel n) (pass2 table image c lines) := by
  induction lines generalizing image c with
  | nil => exact .ok image
  | cons ln more ih =>
    by_cases hend : ln.cmd = some (.dir .endOfProgram)
    · rw [pass2_cons_end hend]; exact .ok image
    · rw [pass2_cons_eq_bind hend]
      exact (emit_failsOnlyWith table ln.cmd).bind fun w => ih _ _

/-- Settles O55: each stage's checks raise only the stage's errors, and neither pass's error is the parser's. -/
theorem stagesRaiseTheirOwnErrors : Obligations.StagesRaiseTheirOwnErrors :=
  ⟨fun src _ h => AsmError.not_passError_of_ofParser (parserCheck_parse src _ h), pass1_failsOnlyWith [] 0,
    pass2_failsOnlyWith⟩

end Sys2Proof.Asm

/-! PROOFS. The `assemble` transaction and the state (spec/60_exceptions.md R201, spec/45_asm_passes.md R160). -/

namespace Sys2Proof.Machine

/-- `assemble` leaves the block as it is, and its reply, an image or a failure, is a function of the source alone (R160). -/
@[simp] theorem transact_assemble (b : Block) (src : Asm.Source) :
    transact b (.assemble src) = .next (b, assembleReply src) := rfl

/-- Settles O36: the common reply of the two blocks is `assembleReply` of the source. -/
theorem assembleTouchesNoState : Obligations.AssembleTouchesNoState := fun b c src =>
  ⟨assembleReply src, transact_assemble b src, transact_assemble c src⟩

end Sys2Proof.Machine

/-! PROOFS. The encoder behind the decoder, and the canonical words (spec/30_encoding.md R66, R67). -/

namespace Sys2Proof

/-- The eight opcodes (R62). -/
theorem opcode_cases : ∀ op : Opcode,
    op = 0#3 ∨ op = 1#3 ∨ op = 2#3 ∨ op = 3#3 ∨ op = 4#3 ∨ op = 5#3 ∨ op = 6#3 ∨ op = 7#3 := by decide

/-- The encoder writes the opcode back, and the address field for opcodes 0–4 only (R63, R64). -/
theorem encode_decodeFields_toNat (op : Opcode) (i : Index) :
    (encode (decodeFields op i)).toNat = 512 * op.toNat + if op.toNat ≤ 4 then i.toNat else 0 := by
  have haddressed : ∀ p : Opcode, (encodeAddressed p (zext12 i)).toNat = 512 * p.toNat + i.toNat := fun p => by
    rw [encodeAddressed_toNat, ← indexOf_toNat, indexOf_zext12]
  rcases opcode_cases op with rfl | rfl | rfl | rfl | rfl | rfl | rfl | rfl
  · exact haddressed 0#3
  · exact haddressed 1#3
  · exact haddressed 2#3
  · exact haddressed 3#3
  · exact haddressed 4#3
  · rfl
  · rfl
  · rfl

theorem encode_decode_toNat (w : Word) :
    (encode (decode w)).toNat = 512 * (w.toNat / 512) + if w.toNat / 512 ≤ 4 then w.toNat % 512 else 0 := by
  rw [decode_eq_decodeFields, encode_decodeFields_toNat, opcodeField_toNat, addressField_toNat]

/-- Canonical words by their fields as numbers (R66). -/
theorem canonical_iff {w : Word} : canonical w = true ↔ w.toNat / 512 ≤ 4 ∨ w.toNat % 512 = 0 := by
  rw [canonical, Bool.or_eq_true, decide_eq_true_eq, decide_eq_true_eq, opcodeField_toNat, ← addressField_toNat,
    ← BitVec.toNat_inj]
  rfl

theorem canonical_eq_false_iff {w : Word} : canonical w = false ↔ 2560 ≤ w.toNat ∧ w.toNat % 512 ≠ 0 := by
  rw [← Bool.not_eq_true, canonical_iff]
  omega

/-- A word is the encoding of its decoding exactly when it is canonical (R67). -/
theorem encode_decode_eq_iff {w : Word} : encode (decode w) = w ↔ canonical w = true := by
  rw [← BitVec.toNat_inj, encode_decode_toNat, canonical_iff]
  split <;> omega

/-- The mask `0xE00` keeps the opcode and clears bits 8–0 (R61). -/
theorem opcodeBits_opcodeField (w : Word) : opcodeBits (opcodeField w) = w &&& 0xE00#12 := by
  have hmask : ∀ i < 12, (0xE00#12).getLsbD i = decide (9 ≤ i) := by decide
  refine BitVec.eq_of_getLsbD_eq fun i hi => ?_
  rw [BitVec.getLsbD_and, hmask i hi, opcodeBits, opcodeField, BitVec.getLsbD_shiftLeft, BitVec.getLsbD_setWidth,
    BitVec.getLsbD_extractLsb']
  by_cases h9 : 9 ≤ i
  · have hadd : 9 + (i - 9) = i := by omega
    simp [h9, hi, hadd, show i - 9 < 3 by omega, show i - 9 < 12 by omega]
  · simp [h9, show i < 9 by omega]

/-- A word that is not canonical loses its bits 8–0 in the round trip (R66). -/
theorem encode_decode_of_not_canonical {w : Word} (h : canonical w = false) : encode (decode w) = w &&& 0xE00#12 := by
  rw [canonical_eq_false_iff] at h
  rw [← opcodeBits_opcodeField, ← BitVec.toNat_inj, encode_decode_toNat, opcodeBits_toNat, opcodeField_toNat,
    if_neg (by omega), Nat.add_zero]

/-- The canonical words are those below 2560 and three more (R66). -/
theorem canonical_iff_lt_or_eq {w : Word} :
    canonical w = true ↔ w.toNat < 2560 ∨ w = 0xA00#12 ∨ w = 0xC00#12 ∨ w = 0xE00#12 := by
  have hw : w.toNat < 4096 := w.isLt
  simp only [canonical_iff, ← BitVec.toNat_inj, show (0xA00#12).toNat = 2560 from rfl,
    show (0xC00#12).toNat = 3072 from rfl, show (0xE00#12).toNat = 3584 from rfl]
  omega

/-- Of the 512 words of an opcode above 4 all but the first are not canonical (R66). -/
theorem count_not_canonical_add_512 {b : Nat} (hb : b % 512 = 0) (hlow : 2560 ≤ b) :
    Nat.count (fun n => 2560 ≤ n ∧ n % 512 ≠ 0) (b + 512) =
      Nat.count (fun n => 2560 ≤ n ∧ n % 512 ≠ 0) b + 511 := by
  have hrest : Nat.count (fun k => 2560 ≤ b + 1 + k ∧ (b + 1 + k) % 512 ≠ 0) 511 = 511 :=
    Nat.count_iff_forall.2 fun k hk => ⟨by omega, by omega⟩
  rw [show b + 512 = b + 1 + 511 from rfl, Nat.count_add, hrest, Nat.count_succ, if_neg (by omega), Nat.add_zero]

theorem count_not_canonical : Nat.count (fun n => 2560 ≤ n ∧ n % 512 ≠ 0) 4096 = 1533 := by
  have hlow : Nat.count (fun n => 2560 ≤ n ∧ n % 512 ≠ 0) 2560 = 0 :=
    Nat.count_iff_forall_not.2 fun n hn => by omega
  calc Nat.count (fun n => 2560 ≤ n ∧ n % 512 ≠ 0) 4096
    _ = Nat.count _ 3584 + 511 := count_not_canonical_add_512 rfl (by omega)
    _ = Nat.count _ 3072 + 511 + 511 := by rw [count_not_canonical_add_512 (b := 3072) rfl (by omega)]
    _ = Nat.count _ 2560 + 511 + 511 + 511 := by rw [count_not_canonical_add_512 (b := 2560) rfl (by omega)]
    _ = 1533 := by rw [hlow]

/-- There are 1533 words that are not canonical (R66). -/
theorem length_not_canonical :
    ((List.range 4096).filter fun n => !canonical (BitVec.ofNat 12 n)).length = 1533 := by
  have hsame : ((List.range 4096).filter fun n => !canonical (BitVec.ofNat 12 n)) =
      (List.range 4096).filter fun n => decide (2560 ≤ n ∧ n % 512 ≠ 0) := by
    refine List.filter_congr fun n hn => ?_
    have hn : n % 4096 = n := Nat.mod_eq_of_lt (List.mem_range.1 hn)
    rw [Bool.eq_iff_iff, Bool.not_eq_true', canonical_eq_false_iff, BitVec.toNat_ofNat, decide_eq_true_eq]
    rw [show 2 ^ 12 = 4096 from rfl, hn]
  rw [hsame, ← List.countP_eq_length_filter]
  exact count_not_canonical

/-- Settles O3: the round trip through the word keeps the opcode, and bits 8–0 for opcodes 0–4 only. -/
theorem roundTripHoldsOnCanonicalWords : Obligations.RoundTripHoldsOnCanonicalWords :=
  ⟨fun _ => decode_encode, fun _ => encode_decode_eq_iff, fun _ => encode_decode_of_not_canonical,
    fun _ => canonical_iff_lt_or_eq, length_not_canonical⟩

/-- What an addressed instruction's encoding is decoded to: its opcode's instruction, the address reduced to 9 bits
(R63). -/
theorem decode_encodeAddressed (op : Opcode) (a : Address) :
    decode (encodeAddressed op a) = decodeFields op (indexOf a) := by
  rw [decode_eq_decodeFields, opcodeField_encodeAddressed, addressField_encodeAddressed]

/-- Settles O5: fixed words, evaluated. -/
theorem writtenOutWordsDecode : Obligations.WrittenOutWordsDecode := by
  unfold Obligations.WrittenOutWordsDecode
  decide

end Sys2Proof

/-! PROOFS. An instruction and its encoding have one effect (spec/30_encoding.md R63, spec/20_memory.md R41). -/

namespace Sys2Proof.Machine

/-- An instruction's effect depends on the low 9 bits of its address only (R41). -/
theorem after_decode_encode (i : Instr) (s : State) : after (decode (encode i)) s = after i s := by
  have haddressed : ∀ (op : Opcode) (a : Address), after (decodeFields op (indexOf a)) s = after i s →
      after (decode (encodeAddressed op a)) s = after i s := fun op a h => by rwa [decode_encodeAddressed]
  cases i with
  | store a => exact haddressed 0#3 a (by simp only [decodeFields_store, after, indexOf_zext12])
  | load a => exact haddressed 1#3 a (by simp only [decodeFields_load, after, indexOf_zext12])
  | add a => exact haddressed 2#3 a (by simp only [decodeFields_add, after, indexOf_zext12])
  | branch a => exact haddressed 3#3 a (by simp only [decodeFields_branch, after, indexOf_zext12])
  | branchIfZero a => exact haddressed 4#3 a (by simp only [decodeFields_branchIfZero, after, indexOf_zext12])
  | _ => rfl

/-- Settles O4: both sides answer `after`, which reads an address through `indexOf` only. -/
theorem encodingKeepsEffect : Obligations.EncodingKeepsEffect := fun i s => by
  rw [exec_eq, exec_eq, after_decode_encode]

end Sys2Proof.Machine

/-! PROOFS. Halt, the end of a run, and the report (spec/40_step_cycle.md R86–R89, spec/43_control.md R122). -/

namespace Sys2Proof.Machine

theorem stepResult_eq_halted_iff {s : State} : stepResult s = .halted ↔ decode s.fetchWord = .halt :=
  resultOf_eq_halted_iff

/-- A step on a Halt word fetches it and does nothing else (R88). -/
theorem stepReporting_of_halt {s : State} (h : decode s.fetchWord = .halt) :
    stepReporting s = .next (s.fetch, .halted) := by
  rw [stepReporting_eq, stepResult_eq_halted_iff.2 h, h, after]

/-- A step that reports `Halted` is a step on a Halt word (R86). -/
theorem stepReporting_eq_halted_iff {s t : State} :
    stepReporting s = .next (t, .halted) ↔ decode s.fetchWord = .halt ∧ t = s.fetch := by
  refine ⟨fun h => ?_, fun ⟨h, ht⟩ => ht ▸ stepReporting_of_halt h⟩
  have hreport := h
  rw [stepReporting_eq, Host.Outcome.next.injEq, Prod.mk.injEq] at hreport
  have hhalt := stepResult_eq_halted_iff.1 hreport.2
  rw [stepReporting_of_halt hhalt, Host.Outcome.next.injEq, Prod.mk.injEq] at h
  exact ⟨hhalt, h.1.symm⟩

/-- The step after a halted one repeats it: it fetches the same Halt word again (R88). -/
theorem stepReporting_repeats {s t : State} (h : stepReporting s = .next (t, .halted)) :
    stepReporting t = .next (t, .halted) := by
  obtain ⟨hhalt, rfl⟩ := stepReporting_eq_halted_iff.1 h
  exact stepReporting_of_halt (s := s.fetch) hhalt

/-- Settles O10: a Halt step leaves what its fetch leaves, where the next step fetches the same word. -/
theorem haltedStepRepeats : Obligations.HaltedStepRepeats :=
  ⟨fun _ => stepReporting_of_halt, fun _ _ => stepReporting_repeats⟩

/-- A run of `n + 1` steps goes on from where the first one leads, whatever it reports. -/
theorem stepMany_succ_of_stepReporting {s u : State} {r : StepResult} (h : stepReporting s = .next (u, r)) (n : Nat) :
    stepMany (n + 1) s = stepMany n u := by
  rw [stepReporting_eq, Host.Outcome.next.injEq, Prod.mk.injEq] at h
  rw [stepMany_succ, h.1]

/-- A halted state is left by no number of steps (R88). -/
theorem stepMany_of_halted {t : State} (h : stepReporting t = .next (t, .halted)) (k : Nat) :
    stepMany k t = .next t := by
  induction k with
  | zero => rfl
  | succ k ih => rw [stepMany_succ_of_stepReporting h, ih]

/-- Every further step leaves a run's end state as it is (R88, R89). -/
theorem HaltsAfter.stepMany_eq {n : Nat} {s t : State} (h : HaltsAfter n s t) (k : Nat) :
    stepMany (n + 1 + k) s = .next t := by
  induction n generalizing s with
  | zero =>
    rw [show 0 + 1 + k = k + 1 by omega, stepMany_succ_of_stepReporting h]
    exact stepMany_of_halted (stepReporting_repeats h) k
  | succ n ih =>
    obtain ⟨u, hstep, hrest⟩ := h
    rw [show n + 1 + 1 + k = n + 1 + k + 1 by omega, stepMany_succ_of_stepReporting hstep, ih hrest]

/-- The step function has one answer, so a run ends at one place only (R89). -/
theorem HaltsAfter.unique {n m : Nat} {s t u : State} (hn : HaltsAfter n s t) (hm : HaltsAfter m s u) :
    m = n ∧ u = t := by
  induction n generalizing s m with
  | zero =>
    cases m with
    | zero => exact ⟨rfl, by cases hn.symm.trans hm; rfl⟩
    | succ m => obtain ⟨v, hstep, -⟩ := hm; cases hn.symm.trans hstep
  | succ n ih =>
    obtain ⟨v, hstep, hrest⟩ := hn
    cases m with
    | zero => cases hstep.symm.trans hm
    | succ m =>
      obtain ⟨w, hstep', hrest'⟩ := hm
      cases hstep.symm.trans hstep'
      obtain ⟨rfl, hend⟩ := ih hrest hrest'
      exact ⟨rfl, hend⟩

/-- Settles O11: both parts by induction on the steps before the halted one. -/
theorem haltedRunKeepsEndState : Obligations.HaltedRunKeepsEndState :=
  fun _ _ _ h => ⟨h.stepMany_eq, fun _ _ hm => h.unique hm⟩

/-- The Halt words are those from `0xE00` on, by their opcode alone (R65). -/
theorem decode_eq_halt_iff {w : Word} : decode w = .halt ↔ 0xE00 ≤ w.toNat := by
  have hlt : w.toNat < 4096 := w.isLt
  have hop : decode w = .halt ↔ opcodeField w = 7#3 := by
    rw [decode_eq_decodeFields]
    rcases opcode_cases (opcodeField w) with h | h | h | h | h | h | h | h <;> rw [h] <;> simp
  rw [hop, ← BitVec.toNat_inj, opcodeField_toNat, show (7#3).toNat = 7 from rfl]
  omega

/-- Settles O26: Halt's step is its fetch and is repeated; every other step reports `Continue`. -/
theorem haltLeavesPcAndReports : Obligations.HaltLeavesPcAndReports := by
  refine ⟨fun s => exec_eq .halt s, ?halts, ?others⟩
  case halts =>
    intro s hw
    have hstep := stepReporting_of_halt (decode_eq_halt_iff.2 hw)
    exact ⟨hstep, stepReporting_repeats hstep⟩
  case others =>
    intro s hw
    have hne : decode s.fetchWord ≠ .halt := mt decode_eq_halt_iff.1 (Nat.not_le.2 hw)
    refine ⟨after (decode s.fetchWord) s.fetch, ?_⟩
    rw [stepReporting_eq, stepResult, resultOf_of_ne_halt hne]

end Sys2Proof.Machine

/-! PROOFS. The frame of a step: what it answers, and what can change `PC`, `ACC`, `HIST` and memory
(spec/10_state.md R21–R31, spec/20_memory.md R44). -/

namespace Sys2Proof.Machine

/-- Settles O8: `exec_eq` and `step_eq` give the answers, and no instruction writes `IR`. -/
theorem everyStepAnswers : Obligations.EveryStepAnswers := by
  refine ⟨fun s => ⟨_, step_eq s, ?ir⟩, fun i s => ⟨_, exec_eq i s, after_ir i s⟩⟩
  case ir => rw [after_ir, State.fetch_ir, fetchWord_eq_read]

/-- An index as a `PC` value is below 512 (R85). -/
theorem zext12_toNat_lt (i : Index) : (zext12 i).toNat < 512 := by
  rw [zext12_toNat]
  exact i.isLt

/-- The `PC` after an instruction: the increment, a jump target below 512, or for Halt the old one (R85). -/
theorem after_pc_cases (i : Instr) (s : State) :
    (after i s).pc = s.pc + 1 ∨ (after i s).pc.toNat < 512 ∨ (after i s).pc = s.pc ∧ i = .halt := by
  cases i with
  | branch a => exact .inr (.inl (zext12_toNat_lt _))
  | branchIfZero a =>
    by_cases h : s.acc = 0
    · rw [after_branchIfZero_taken a h]; exact .inr (.inl (zext12_toNat_lt _))
    · rw [after_branchIfZero_not_taken a h]; exact .inl rfl
  | halt => exact .inr (.inr ⟨rfl, rfl⟩)
  | _ => exact .inl rfl

/-- Settles O12: the increment does not wrap where it leads to 512 or more. -/
theorem pcAbove511OnlyByIncrement : Obligations.PcAbove511OnlyByIncrement := by
  intro s t hstep habove
  rw [step_next_iff] at hstep
  subst hstep
  rcases after_pc_cases (decode s.fetchWord) s.fetch with hadv | hjump | hstay
  · rw [hadv, State.fetch_pc] at habove ⊢
    rw [BitVec.toNat_add] at habove ⊢
    have hlt : s.pc.toNat < 4096 := s.pc.isLt
    simp only [show (1 : Word).toNat = 1 from rfl] at habove ⊢
    omega
  · omega
  · exact .inr hstay

/-- `ACC` after an instruction that is none of Load, Add, Clear and Decrease (R21). -/
theorem after_acc_cases (i : Instr) (s : State) :
    (after i s).acc = s.acc ∨ (∃ a, i = .load a) ∨ (∃ a, i = .add a) ∨ i = .clear ∨ i = .decrease := by
  cases i <;> simp [after]

/-- The history and the memory after an instruction that is no Store (R31, R44). -/
theorem after_hist_mem_cases (i : Instr) (s : State) :
    (after i s).hist = s.hist ∧ (after i s).mem = s.mem ∨ ∃ a, i = .store a := by
  cases i <;> simp [after]

/-- Settles O16: the writers of `ACC` and of `HIST` are read off what an instruction leaves. -/
theorem accumulatorAndHistoryWriters : Obligations.AccumulatorAndHistoryWriters := by
  intro s t hstep
  rw [step_next_iff] at hstep
  subst hstep
  refine ⟨fun hne => ?acc, fun hne => ?hist⟩
  case acc => exact (after_acc_cases _ s.fetch).resolve_left hne
  case hist => exact (after_hist_mem_cases _ s.fetch).resolve_left fun h => hne h.1

/-- Settles O15: only a Store changes memory, and a Store at its own index only. -/
theorem onlyStoreChangesMemory : Obligations.OnlyStoreChangesMemory := by
  intro s t j hwf hstep hne
  rw [step_next_iff] at hstep
  subst hstep
  obtain ⟨-, hmem⟩ | ⟨a, ha⟩ := after_hist_mem_cases (decode s.fetchWord) s.fetch
  · rw [hmem] at hne
    exact absurd rfl hne
  · have hread := read_after_store (s := s.fetch) hwf a j
    rw [ha] at hne ⊢
    by_cases hj : j = effectiveIndex a
    · exact ⟨a, rfl, hj.symm, by rw [hread, if_pos hj, State.fetch_acc]⟩
    · rw [hread, if_neg hj] at hne
      exact absurd rfl hne

/-- Settles O18: the Store leaves `IR`, and the word it wrote is the next one fetched from its index. -/
theorem storeSeenByNextFetch : Obligations.StoreSeenByNextFetch := by
  intro s t a hwf hstore hstep
  rw [step_next_iff, hstore] at hstep
  subst hstep
  refine ⟨rfl, fun p hp => ?_⟩
  have hword : State.fetchWord { after (.store a) s.fetch with pc := p } = s.acc := by
    rw [fetchWord_eq_read, hp, read_after_store (s := s.fetch) hwf, if_pos rfl, State.fetch_acc]
  rw [step, State.fetch_ir, hword, State.fetch, hword]
  rfl

/-- Settles O22: `ACC` is zero, which `Z` then tests; every other field but `PC` is as before. -/
theorem clearZeroesAccumulator : Obligations.ClearZeroesAccumulator := by
  refine ⟨fun s => ⟨after .clear s, exec_eq _ s, rfl, ?zero, ?pc, fun _ => rfl, rfl, rfl⟩, ?words⟩
  case zero => exact (State.zero_iff _).2 rfl
  case pc => exact BitVec.toNat_add s.pc 1
  case words => exact fun w hlow hhigh => decode_of_opcode 5#3 (show w.toNat / 512 = 5 by omega)

/-- One less modulo 4096 (R112). -/
theorem sub_one_toNat (x : Word) : (x - 1).toNat = (x.toNat + 4095) % 4096 := by
  rw [BitVec.toNat_sub, Nat.add_comm]
  rfl

/-- Settles O23: `ACC` is one less, which `Z` then tests; every other field but `PC` is as before. -/
theorem decreaseWrapsModulo4096 : Obligations.DecreaseWrapsModulo4096 := by
  refine ⟨fun s => ⟨after .decrease s, exec_eq _ s, sub_one_toNat s.acc, ?zero, ?pc, fun _ => rfl, rfl, rfl⟩,
    ?words⟩
  case zero =>
    have hlt : s.acc.toNat < 4096 := s.acc.isLt
    have hzero : s.acc - 1 = 0 ↔ (s.acc.toNat + 4095) % 4096 = 0 := by rw [← BitVec.toNat_inj, sub_one_toNat]; rfl
    rw [State.zero_iff]
    exact hzero.trans (by omega)
  case pc => exact BitVec.toNat_add s.pc 1
  case words => exact fun w hlow hhigh => decode_of_opcode 6#3 (show w.toNat / 512 = 6 by omega)

end Sys2Proof.Machine

/-! PROOFS. Execution does not depend on bits 11–9 of `PC` (spec/10_state.md R24, spec/40_step_cycle.md R81, R85). -/

namespace Sys2Proof.Machine

/-- Another `PC` of the same low 9 bits before an instruction shows in the `PC` after it and nowhere else, with the same
low 9 bits again: a jump forgets it, and the increment and Halt keep the relation. -/
theorem after_otherPc (i : Instr) (s : State) {p : Word} (hp : p.toNat % 512 = s.pc.toNat % 512) :
    ∃ p', after i { s with pc := p } = { after i s with pc := p' } ∧
      p'.toNat % 512 = (after i s).pc.toNat % 512 := by
  have hnext : (p + 1).toNat % 512 = (s.pc + 1).toNat % 512 := by
    rw [BitVec.toNat_add, BitVec.toNat_add, show (1 : Word).toNat = 1 from rfl]
    omega
  cases i with
  | branch a => exact ⟨zext12 (indexOf a), rfl, rfl⟩
  | branchIfZero a =>
    by_cases h : s.acc = 0
    · rw [after_branchIfZero_taken a h, after_branchIfZero_taken (s := { s with pc := p }) a h]
      exact ⟨zext12 (indexOf a), rfl, rfl⟩
    · rw [after_branchIfZero_not_taken a h, after_branchIfZero_not_taken (s := { s with pc := p }) a h]
      exact ⟨p + 1, rfl, hnext⟩
  | halt => exact ⟨p, rfl, hp⟩
  | _ => exact ⟨p + 1, rfl, hnext⟩

/-- The fetch looks at the low 9 bits of `PC` only (R81). -/
theorem fetchWord_otherPc (s : State) {p : Word} (hp : p.toNat % 512 = s.pc.toNat % 512) :
    State.fetchWord { s with pc := p } = s.fetchWord := by
  rw [fetchWord_eq_read, fetchWord_eq_read, hp]

theorem fetch_otherPc (s : State) {p : Word} (hp : p.toNat % 512 = s.pc.toNat % 512) :
    State.fetch { s with pc := p } = { s.fetch with pc := p } := by
  rw [State.fetch, fetchWord_otherPc s hp]
  rfl

/-- Settles O13, by induction on the number of steps: two runs whose `PC`s agree in the low 9 bits fetch and execute the
same instruction, and their `PC`s agree there again. -/
theorem highPcBitsNeverMatter : Obligations.HighPcBitsNeverMatter := by
  intro n
  induction n with
  | zero =>
    intro s p hp
    exact ⟨s, p, rfl, rfl, hp, by rw [stepResult, stepResult, fetchWord_otherPc s hp]⟩
  | succ n ih =>
    intro s p hp
    obtain ⟨p₁, hstep, hp₁⟩ := after_otherPc (decode s.fetchWord) s.fetch (p := p) hp
    simp only [stepMany_succ, fetchWord_otherPc s hp, fetch_otherPc s hp, hstep]
    exact ih _ p₁ hp₁

end Sys2Proof.Machine

/-! PROOFS. The accesses of a step are all it does with memory (spec/20_memory.md R44). -/

namespace Sys2Proof.Machine

/-- An instruction makes no access, one read or one write of `ACC` (R44). -/
theorem operandAccesses_cases (i : Instr) (s : State) :
    operandAccesses i s = [] ∨ (∃ j, operandAccesses i s = [.read j (s.mem.read j)]) ∨
      ∃ j, operandAccesses i s = [.write j s.acc] := by
  cases i with
  | store a => exact .inr (.inr ⟨_, rfl⟩)
  | load a => exact .inr (.inl ⟨_, rfl⟩)
  | add a => exact .inr (.inl ⟨_, rfl⟩)
  | _ => exact .inl rfl

/-- The accesses an instruction makes, applied in order, are its effect on memory (R44). -/
theorem after_mem_eq_foldl (i : Instr) (s : State) :
    (after i s).mem = (operandAccesses i s).foldl Memory.apply s.mem := by
  cases i <;> rfl

section OtherMemory

variable {i : Instr} {s : State} {m : Memory}

/-- A memory with the words an instruction reads has its operand word. -/
theorem read_otherMem (hm : ∀ j w, Access.read j w ∈ operandAccesses i s → m.read j = w) {a : Address}
    (h : operandAccesses i s = [.read (effectiveIndex a) (s.operandWord a)]) :
    m.read (effectiveIndex a) = s.mem.read (effectiveIndex a) :=
  hm _ _ (h ▸ List.mem_singleton_self _)

/-- Another memory with the words an instruction reads shows in the memory after it and nowhere else. -/
theorem after_otherMem (hm : ∀ j w, Access.read j w ∈ operandAccesses i s → m.read j = w) :
    ∃ m', after i { s with mem := m } = { after i s with mem := m' } := by
  cases i with
  | store a => exact ⟨m.write (indexOf a) s.acc, rfl⟩
  | load a =>
    have hword : m.read (indexOf a) = s.mem.read (indexOf a) := read_otherMem hm rfl
    exact ⟨m, by simp only [after, hword]⟩
  | add a =>
    have hword : m.read (indexOf a) = s.mem.read (indexOf a) := read_otherMem hm rfl
    exact ⟨m, by simp only [after, hword]⟩
  | _ => exact ⟨m, rfl⟩

/-- On another memory with the words an instruction reads it makes the same accesses. -/
theorem operandAccesses_otherMem (hm : ∀ j w, Access.read j w ∈ operandAccesses i s → m.read j = w) :
    operandAccesses i { s with mem := m } = operandAccesses i s := by
  cases i with
  | load a => simp only [operandAccesses, State.operandWord_eq, read_otherMem hm rfl]
  | add a => simp only [operandAccesses, State.operandWord_eq, read_otherMem hm rfl]
  | _ => rfl

end OtherMemory

/-- Settles O17: the accesses are the fetch read and the instruction's own, and with the words they read the rest of
memory does not matter. -/
theorem stepAccessesMemoryAsListed : Obligations.StepAccessesMemoryAsListed := by
  intro s
  refine ⟨_, operandAccesses (decode s.fetchWord) s, step_eq s, rfl, operandAccesses_cases _ s,
    after_mem_eq_foldl _ s.fetch, ?otherMem⟩
  intro m hm
  have hword : State.fetchWord { s with mem := m } = s.fetchWord := hm _ _ (List.mem_cons_self ..)
  have hfetch : State.fetch { s with mem := m } = { s.fetch with mem := m } := by rw [State.fetch, hword]; rfl
  have hoperands : ∀ j w, Access.read j w ∈ operandAccesses (decode s.fetchWord) s → m.read j = w :=
    fun j w hj => hm j w (List.mem_cons_of_mem _ hj)
  obtain ⟨m', hafter⟩ := after_otherMem (s := s.fetch) hoperands
  refine ⟨_, step_eq _, ?_⟩
  rw [hword, hfetch, hafter]
  refine ⟨rfl, rfl, rfl, rfl, ?_⟩
  rw [stepAccesses, hword, operandAccesses_otherMem hoperands]
  rfl

end Sys2Proof.Machine

/-! PROOFS. The step against the reference step over natural numbers (spec/40_step_cycle.md R87). -/

namespace Sys2Proof.Machine

/-- The reference executes the word `w` as the model executes the instruction `i`: it leaves the fields of the state the
model leaves, but for `PC`, and names the `PC` the model moves to (R83–R85). -/
def ReferenceExecutes (w : Word) (i : Instr) : Prop :=
  ∀ u : State, u.mem.wf = true → ∃ next,
    Reference.execute Config.historyDepth w.toNat (Reference.ofState u) =
      ({ Reference.ofState (after i u) with pc := u.pc.toNat }, next) ∧
    Reference.nextPc u.pc.toNat next = (after i u).pc.toNat

section Execute

variable {w : Word}

theorem advance_toNat (p : Word) : (p + 1).toNat = (p.toNat + 1) % 4096 := BitVec.toNat_add p 1

/-- The reference's operand address is the index of the decoded address (R41, R61). -/
theorem addressOf_toNat (w : Word) : Reference.addressOf w.toNat = (indexOf (zext12 (addressField w))).toNat := by
  rw [indexOf_zext12, addressField_toNat]
  rfl

theorem referenceExecutes_store (h : w.toNat / 512 = 0) : ReferenceExecutes w (.store (zext12 (addressField w))) := by
  intro u hwf
  refine ⟨.advance, ?_, (advance_toNat u.pc).symm⟩
  have hmem : ∀ (i : Index) (j : Nat), ((u.mem.write i u.acc).readCell j).toNat =
      if j = i.toNat then u.acc.toNat else (u.mem.readCell j).toNat := fun i j => by
    rw [Memory.write, Memory.readCell_writeCell hwf]
    split <;> rfl
  simp only [Reference.execute, h, Reference.ofState, after, hmem, keepNewest_eq_take, List.map_take, List.map_cons,
    addressOf_toNat]

theorem referenceExecutes_load (h : w.toNat / 512 = 1) : ReferenceExecutes w (.load (zext12 (addressField w))) := by
  intro u _
  refine ⟨.advance, ?_, (advance_toNat u.pc).symm⟩
  simp only [Reference.execute, h, Reference.ofState, after, addressOf_toNat, Memory.read]

theorem referenceExecutes_add (h : w.toNat / 512 = 2) : ReferenceExecutes w (.add (zext12 (addressField w))) := by
  intro u _
  refine ⟨.advance, ?_, (advance_toNat u.pc).symm⟩
  simp only [Reference.execute, h, Reference.ofState, after, addressOf_toNat, Memory.read, BitVec.toNat_add,
    Nat.reducePow]

theorem referenceExecutes_branch (h : w.toNat / 512 = 3) : ReferenceExecutes w (.branch (zext12 (addressField w))) := by
  intro u _
  refine ⟨.jump (Reference.addressOf w.toNat), ?_, ?_⟩
  · simp only [Reference.execute, h, Reference.ofState, after]
  · rw [Reference.nextPc, addressOf_toNat, after, zext12_toNat]

theorem referenceExecutes_branchIfZero (h : w.toNat / 512 = 4) :
    ReferenceExecutes w (.branchIfZero (zext12 (addressField w))) := by
  intro u _
  by_cases hacc : u.acc = 0
  · have hnum : u.acc.toNat = 0 := congrArg BitVec.toNat hacc
    refine ⟨.jump (Reference.addressOf w.toNat), ?_, ?_⟩
    · simp only [Reference.execute, h, Reference.ofState, after, hnum, if_true]
    · rw [Reference.nextPc, addressOf_toNat, after_branchIfZero_taken _ hacc, zext12_toNat]
  · have hnum : u.acc.toNat ≠ 0 := mt (BitVec.toNat_inj (y := 0)).1 hacc
    refine ⟨.advance, ?_, ?_⟩
    · simp only [Reference.execute, h, Reference.ofState, after, hnum, if_false]
    · rw [Reference.nextPc, after_branchIfZero_not_taken _ hacc, advance_toNat]

theorem referenceExecutes_clear (h : w.toNat / 512 = 5) : ReferenceExecutes w .clear := by
  intro u _
  refine ⟨.advance, ?_, (advance_toNat u.pc).symm⟩
  simp only [Reference.execute, h, Reference.ofState, after]
  rfl

theorem referenceExecutes_decrease (h : w.toNat / 512 = 6) : ReferenceExecutes w .decrease := by
  intro u _
  refine ⟨.advance, ?_, (advance_toNat u.pc).symm⟩
  simp only [Reference.execute, h, Reference.ofState, after, sub_one_toNat]

theorem referenceExecutes_halt (h : w.toNat / 512 = 7) : ReferenceExecutes w .halt := by
  intro u _
  refine ⟨.stay, ?_, rfl⟩
  simp only [Reference.execute, h]
  rfl

end Execute

/-- Every word is executed alike by the reference and by the model (R83, R84). -/
theorem referenceExecutes_decode (w : Word) : ReferenceExecutes w (decode w) := by
  have hlt : w.toNat < 4096 := w.isLt
  obtain h | h | h | h | h | h | h | h : w.toNat / 512 = 0 ∨ w.toNat / 512 = 1 ∨ w.toNat / 512 = 2 ∨
    w.toNat / 512 = 3 ∨ w.toNat / 512 = 4 ∨ w.toNat / 512 = 5 ∨ w.toNat / 512 = 6 ∨ w.toNat / 512 = 7 := by omega
  · rw [decode_of_opcode 0#3 h]; exact referenceExecutes_store h
  · rw [decode_of_opcode 1#3 h]; exact referenceExecutes_load h
  · rw [decode_of_opcode 2#3 h]; exact referenceExecutes_add h
  · rw [decode_of_opcode 3#3 h]; exact referenceExecutes_branch h
  · rw [decode_of_opcode 4#3 h]; exact referenceExecutes_branchIfZero h
  · rw [decode_of_opcode 5#3 h]; exact referenceExecutes_clear h
  · rw [decode_of_opcode 6#3 h]; exact referenceExecutes_decrease h
  · rw [decode_of_opcode 7#3 h]; exact referenceExecutes_halt h

/-- The reference reports `Halted` for the words of opcode 7, as the model does for Halt (R86). -/
theorem stepResult_eq_ite (s : State) :
    stepResult s = if s.fetchWord.toNat / 512 = 7 then .halted else .continue := by
  have hlt : s.fetchWord.toNat < 4096 := s.fetchWord.isLt
  split
  · exact stepResult_eq_halted_iff.2 (decode_eq_halt_iff.2 (by omega))
  · exact resultOf_of_ne_halt (mt decode_eq_halt_iff.1 (by omega))

/-- The reference fetches the model's word (R81). -/
theorem fetched_ofState (s : State) : Reference.fetched (Reference.ofState s) = s.fetchWord.toNat := by
  rw [State.fetchWord, Memory.read, State.fetchIndex, indexOf_toNat]
  rfl

/-- Settles O7: both fetch one word, execute it alike, move `PC` alike and report alike. -/
theorem stepRefinesReferenceStep : Obligations.StepRefinesReferenceStep := by
  intro s hwf
  refine ⟨_, _, stepReporting_eq s, ?_⟩
  obtain ⟨next, hexec, hpc⟩ := referenceExecutes_decode s.fetchWord s.fetch hwf
  have hfetch : { Reference.ofState s with ir := s.fetchWord.toNat } = Reference.ofState s.fetch := rfl
  rw [Reference.step, fetched_ofState, hfetch, hexec, stepResult_eq_ite]
  dsimp only
  rw [show (Reference.ofState s).pc = s.fetch.pc.toNat from rfl, hpc]
  rfl

end Sys2Proof.Machine

/-! PROOFS. The canonical form of a memory is one form (spec/10_state.md R29, R30). -/

namespace Sys2Proof.Machine

/-- The canonical list is made from the words it lists. -/
theorem Memory.canonicalFrom_congr {m m' : Memory} {n lo : Nat}
    (h : ∀ a, lo ≤ a → a < lo + n → m.readCell a = m'.readCell a) : m.canonicalFrom n lo = m'.canonicalFrom n lo := by
  induction n generalizing lo with
  | zero => rfl
  | succ n ih =>
    have htail : ∀ a, lo + 1 ≤ a → a < lo + 1 + n → m.readCell a = m'.readCell a := fun a h1 h2 =>
      h a (by omega) (by omega)
    rw [Memory.canonicalFrom, Memory.canonicalFrom, h lo (by omega) (by omega), ih htail]

/-- Listing a canonical memory's words up to the last index gives its list back. -/
theorem Memory.canonicalFrom_of_wfFrom {m : Memory} {n lo : Nat} (hwf : m.wfFrom lo = true) (hn : lo + n = 512) :
    m.canonicalFrom n lo = m := by
  induction n generalizing m lo with
  | zero =>
    cases m with
    | nil => rfl
    | cons c m =>
      simp only [Memory.wfFrom, Bool.and_eq_true, decide_eq_true_eq] at hwf
      omega
  | succ n ih =>
    have hskip : m.wfFrom (lo + 1) = true → m.canonicalFrom (n + 1) lo = m := fun h => by
      rw [Memory.canonicalFrom, if_pos (Memory.readCell_of_lt h (Nat.lt_succ_self lo)), ih h (by omega)]
    cases m with
    | nil => exact hskip rfl
    | cons c m =>
      obtain ⟨a, v⟩ := c
      simp only [Memory.wfFrom, Bool.and_eq_true, decide_eq_true_eq] at hwf hskip
      obtain ⟨⟨⟨hlo, h512⟩, hv⟩, htail⟩ := hwf
      by_cases ha : a = lo
      · subst ha
        have hhead : Memory.readCell ((a, v) :: m) a = v := if_pos rfl
        have hrest : Memory.canonicalFrom ((a, v) :: m) n (a + 1) = Memory.canonicalFrom m n (a + 1) :=
          Memory.canonicalFrom_congr fun b hb _ => by rw [Memory.readCell, if_neg (by omega)]
        rw [Memory.canonicalFrom, hhead, if_neg hv, hrest, ih htail (by omega)]
      · exact hskip ⟨⟨⟨by omega, h512⟩, hv⟩, htail⟩

theorem Memory.canonical_of_wf {m : Memory} (h : m.wf = true) : m.canonical = m :=
  Memory.canonicalFrom_of_wfFrom h rfl

/-- Memories with the same 512 words have one canonical list. -/
theorem Memory.canonical_congr {m m' : Memory} (h : ∀ j, m.read j = m'.read j) : m.canonical = m'.canonical := by
  refine Memory.canonicalFrom_congr fun a _ ha => ?_
  have hread := h (BitVec.ofNatLT a (by omega))
  rwa [Memory.read, Memory.read, BitVec.toNat_ofNatLT] at hread

/-- Settles O30: a canonical memory is the canonical list of its words. -/
theorem canonicalMemoryIsUnique : Obligations.CanonicalMemoryIsUnique := by
  refine ⟨fun m n hm hn h => ?_, fun m => Memory.canonical_of_wf⟩
  rw [← Memory.canonical_of_wf hm, Memory.canonical_congr h, Memory.canonical_of_wf hn]

end Sys2Proof.Machine

/-! PROOFS. The invariant of the state along steps and transactions (spec/10_state.md R31, spec/00_scope.md R11). -/

namespace Sys2Proof.Machine

/-- Settles O27: the fetch leaves memory and history, and an instruction keeps their form. -/
theorem stepKeepsMemoryAndHistoryForm : Obligations.StepKeepsMemoryAndHistoryForm := by
  intro s t hinv hstep
  rw [step_next_iff] at hstep
  subst hstep
  exact after_inv (s := s.fetch) hinv

/-- Settles O28: the reset state's fields, with an empty memory and history. -/
theorem resetStateMeetsForm : Obligations.ResetStateMeetsForm :=
  ⟨⟨rfl, Nat.zero_le _⟩, rfl, rfl, rfl, rfl, Memory.read_nil⟩

theorem resetRegisters_inv {s : State} (h : s.Inv) : s.resetRegisters.Inv := h

/-- `set_memory` needs nothing of the old state nor of its argument. -/
theorem setMemory_inv (s : State) (image : Memory) : (s.setMemory image).Inv :=
  ⟨Memory.wf_canonical image, Nat.zero_le _⟩

/-- The `step` transaction once the registers were reset: the engine's step and its report (R35). -/
theorem transact_step {b : Block} (h : b.registersReset = true) :
    transact b .step =
      .next ({ b with core := after (decode b.core.fetchWord) b.core.fetch }, .stepped (stepResult b.core)) := by
  rw [transact, transactStep, if_pos h, stepReporting_eq]

/-- The `step` transaction before it (R35, D5). -/
theorem transact_step_refused {b : Block} (h : b.registersReset = false) :
    transact b .step = .refused .registersNotReset := by
  rw [transact, transactStep, if_neg (by rw [h]; decide)]

/-- What an answered transaction leaves of the block: a step, a reset or a load on its state, or the block itself. -/
theorem transact_cases {b c : Block} {x : Transaction} {r : Reply} (h : transact b x = .next (c, r)) :
    (∃ image, x = .setMemory image ∧ c = { b with core := b.core.setMemory image }) ∨
    (x = .resetRegisters ∧ c = { core := b.core.resetRegisters, registersReset := true }) ∨
    (x = .step ∧ b.registersReset = true ∧ c = { b with core := after (decode b.core.fetchWord) b.core.fetch }) ∨
    ((∀ image, x ≠ .setMemory image) ∧ x ≠ .resetRegisters ∧ c = b) := by
  cases x with
  | setMemory image => cases h; exact .inl ⟨image, rfl, rfl⟩
  | resetRegisters => cases h; exact .inr (.inl ⟨rfl, rfl⟩)
  | step =>
    cases hreset : b.registersReset with
    | false => rw [transact_step_refused hreset] at h; cases h
    | true => rw [transact_step hreset] at h; cases h; exact .inr (.inr (.inl ⟨rfl, rfl, by rw [hreset]⟩))
  | assemble src => cases h; exact .inr (.inr (.inr ⟨nofun, nofun, rfl⟩))
  | memory => cases h; exact .inr (.inr (.inr ⟨nofun, nofun, rfl⟩))
  | lastModifications => cases h; exact .inr (.inr (.inr ⟨nofun, nofun, rfl⟩))
  | registers => cases h; exact .inr (.inr (.inr ⟨nofun, nofun, rfl⟩))

/-- Settles O29: the invariant is kept by a load, a reset and a step, and every other transaction leaves the block. -/
theorem transactionsKeepMemoryAndHistoryForm : Obligations.TransactionsKeepMemoryAndHistoryForm := by
  intro b c x r hinv h
  obtain ⟨image, -, rfl⟩ | ⟨-, rfl⟩ | ⟨-, -, rfl⟩ | ⟨-, -, rfl⟩ := transact_cases h
  · exact setMemory_inv b.core image
  · exact resetRegisters_inv hinv
  · exact after_inv (s := b.core.fetch) hinv
  · exact hinv

/-- Settles O32: the new memory is the canonical list of the image's words. -/
theorem setMemoryReplacesAllWords : Obligations.SetMemoryReplacesAllWords := fun _ image =>
  ⟨_, rfl, Memory.read_canonical image, Memory.wf_canonical image, rfl, rfl, rfl, rfl⟩

/-- Settles O31: the three registers are zero, so `Z` holds and the fetch index is 0. -/
theorem resetRegistersZeroesThree : Obligations.ResetRegistersZeroesThree := fun _ =>
  ⟨_, rfl, rfl, rfl, rfl, rfl, rfl, (State.zero_iff _).2 rfl, rfl⟩

/-- Settles O33: `transact_step` and `transact_step_refused` answer a step, and `transact_cases` says what can change
the record of the reset. -/
theorem powerOnNeedsResetRegisters : Obligations.PowerOnNeedsResetRegisters := by
  refine ⟨Memory.read_nil, rfl, rfl, rfl, fun b => transact_step_refused, ?record, ?answers⟩
  case record =>
    intro b c x r h
    obtain ⟨image, rfl, rfl⟩ | ⟨rfl, rfl⟩ | ⟨rfl, hreset, rfl⟩ | ⟨-, hne, rfl⟩ := transact_cases h
    · simp
    · simp
    · simp
    · simp [hne]
  case answers =>
    intro b hreset
    refine ⟨_, _, stepReporting_eq b.core, ?_⟩
    rw [transact_step hreset, hreset]

/-- Settles O35: the readouts answer fields of the state, and the list of words has one for each index. -/
theorem readoutsChangeNothing : Obligations.ReadoutsChangeNothing := by
  intro b
  refine ⟨rfl, ?length, ?word, rfl, b.core.zero, rfl, ?zero⟩
  case length => rw [Memory.words, List.length_map, List.length_range]
  case word =>
    intro j
    rw [Memory.words, List.getElem?_map, List.getElem?_range j.isLt]
    rfl
  case zero => exact (State.zero_iff _).trans BitVec.toNat_inj.symm

end Sys2Proof.Machine

/-! PROOFS. Pass 1 over a list of lines (spec/45_asm_passes.md R162–R165). -/

namespace Sys2Proof.Asm

theorem counterAfter_singleton (c : Address) (ln : Line) : counterAfter c [ln] = advance c ln.cmd := rfl

/-- Pass 1 over lines and more lines: the second part starts from the first one's table and counter (R162). -/
theorem pass1_append (table : Table) (c : Address) (ls more : List Line) :
    pass1 table c (ls ++ more) = (pass1 table c ls).bind fun table' => pass1 table' (counterAfter c ls) more := by
  induction ls generalizing table c with
  | nil => rfl
  | cons ln ls ih =>
    rw [List.cons_append, pass1_cons_eq_bind, pass1_cons_eq_bind]
    cases bindLabel table c ln.label with
    | error f => rfl
    | ok table' => exact ih table' _

/-- A label bound already is `RedefinedLabel` (R162). -/
theorem bindLabel_bound {table : Table} {n : LabelName} {a : Address} (h : table.find n = some a) (c : Address) :
    bindLabel table c (some n) = .error { error := .redefinedLabel n, rest := none } := by
  simp only [bindLabel, h]

theorem bindLabel_new {table : Table} {n : LabelName} (h : table.find n = none) (c : Address) :
    bindLabel table c (some n) = .ok ((n, c) :: table) := by
  simp only [bindLabel, h]

theorem find_cons_same (n : LabelName) (a : Address) (table : Table) : Table.find ((n, a) :: table) n = some a :=
  if_pos rfl

theorem find_cons_ne {n m : LabelName} (h : n ≠ m) (a : Address) (table : Table) :
    Table.find ((m, a) :: table) n = table.find n := if_neg h

/-- A label is unbound after pass 1 when it was so before and no line defines it (R162). -/
theorem find_eq_none_of_pass1 {table table' : Table} {c : Address} {ls : List Line} (h : pass1 table c ls = .ok table')
    {n : LabelName} : table'.find n = none ↔ table.find n = none ∧ n ∉ labelsOf ls := by
  induction ls generalizing table c with
  | nil => cases h; simp [labelsOf]
  | cons ln ls ih =>
    rw [pass1_cons_eq_bind] at h
    cases hb : bindLabel table c ln.label with
    | error f => rw [hb] at h; cases h
    | ok table₁ =>
      rw [hb] at h
      rw [ih h, labelsOf_cons, List.mem_append, not_or, ← and_assoc]
      obtain ⟨hl, rfl⟩ | ⟨m, hl, hnew, rfl⟩ := bindLabel_ok hb
      · simp [hl]
      · by_cases hnm : n = m
        · simp [hl, hnm, find_cons_same]
        · simp [hl, hnm, find_cons_ne hnm]

/-- Distinct labels, none of them bound before, are accepted (R162). -/
theorem pass1_of_nodup {table : Table} {c : Address} {ls : List Line} (hnodup : (labelsOf ls).Nodup)
    (hnew : ∀ n ∈ labelsOf ls, table.find n = none) : ∃ table', pass1 table c ls = .ok table' := by
  induction ls generalizing table c with
  | nil => exact ⟨table, rfl⟩
  | cons ln ls ih =>
    rw [pass1_cons_eq_bind]
    rw [labelsOf_cons] at hnodup hnew
    cases hl : ln.label with
    | none =>
      rw [hl] at hnodup hnew
      exact ih hnodup hnew
    | some m =>
      rw [hl, Option.toList_some, List.singleton_append] at hnodup hnew
      obtain ⟨hm, hnodup⟩ := List.nodup_cons.1 hnodup
      rw [bindLabel_new (hnew m (List.mem_cons_self ..))]
      refine ih hnodup fun n hn => ?_
      have hne : n ≠ m := fun h => hm (h ▸ hn)
      rw [find_cons_ne hne]
      exact hnew n (List.mem_cons_of_mem _ hn)

/-- A bound label keeps its Address: pass 1 binds unbound labels only (R162). -/
theorem find_of_pass1 {table table' : Table} {c : Address} {ls : List Line} (h : pass1 table c ls = .ok table')
    {n : LabelName} {a : Address} (hn : table.find n = some a) : table'.find n = some a := by
  induction ls generalizing table c with
  | nil => cases h; exact hn
  | cons ln ls ih =>
    rw [pass1_cons_eq_bind] at h
    cases hb : bindLabel table c ln.label with
    | error f => rw [hb] at h; cases h
    | ok table₁ =>
      rw [hb] at h
      refine ih h ?_
      obtain ⟨-, rfl⟩ | ⟨m, -, hnew, rfl⟩ := bindLabel_ok hb
      · exact hn
      · have hne : n ≠ m := by rintro rfl; rw [hnew] at hn; cases hn
        rw [find_cons_ne hne, hn]

/-- Settles O38: distinct labels are accepted, and then a label among them is found bound. -/
theorem passOneRejectsFirstRedefinition : Obligations.PassOneRejectsFirstRedefinition := by
  intro lines
  refine ⟨fun h => pass1_of_nodup h fun _ _ => rfl, ?redefined⟩
  rintro before after ln n rfl hl hmem hnodup
  obtain ⟨table, htable⟩ := pass1_of_nodup (table := []) (c := 0) hnodup fun _ _ => rfl
  obtain ⟨a, ha⟩ : ∃ a, table.find n = some a :=
    Option.ne_none_iff_exists'.1 fun hnone => ((find_eq_none_of_pass1 htable).1 hnone).2 hmem
  rw [pass1_append, htable, Except.bind, pass1_cons_eq_bind, hl, bindLabel_bound ha]
  rfl

/-- Settles O39: the label is bound when its line is reached, and keeps its Address from then on. -/
theorem labelBoundToCounterBeforeItsLine : Obligations.LabelBoundToCounterBeforeItsLine := by
  intro before after ln n table hl h
  rw [pass1_append] at h
  cases hbefore : pass1 [] 0 before with
  | error f => rw [hbefore] at h; cases h
  | ok table₁ =>
    rw [hbefore, Except.bind, pass1_cons_eq_bind] at h
    cases hb : bindLabel table₁ (counterAfter 0 before) ln.label with
    | error f => rw [hb] at h; cases h
    | ok table₂ =>
      rw [hb] at h
      obtain ⟨hnone, -⟩ | ⟨m, hm, -, rfl⟩ := bindLabel_ok hb
      · rw [hl] at hnone; cases hnone
      · rw [hl] at hm
        cases hm
        exact find_of_pass1 h (find_cons_same ..)

end Sys2Proof.Asm

/-! PROOFS. Replacing label operands by the Addresses the table gives (spec/45_asm_passes.md R168, R177). -/

namespace Sys2Proof.Asm

open Sys2Proof.Machine (Memory)

/-- An operand resolves to the same Address when its label is replaced by it (R168). -/
theorem resolve_withLiteral (table : Table) (d : Direction) :
    resolve table (d.withLiteral table) = resolve table d := by
  cases d with
  | lit a => rfl
  | sym n =>
    cases hn : table.find n with
    | none => simp only [Direction.withLiteral, hn]
    | some a => simp only [Direction.withLiteral, hn, resolve]

/-- A command's word depends on what its operand resolves to, so the replacement does not show in it (R167, R168). -/
theorem emit_withLiterals (table : Table) (cmd : Option Command) :
    emit table (cmd.map (Command.withLiterals table)) = emit table cmd := by
  rcases cmd with _ | ⟨op, d⟩ | op | d
  · rfl
  · simp only [Option.map_some, Command.withLiterals, emit, resolve_withLiteral]
  · rfl
  · rfl

theorem advance_withLiterals (table : Table) (c : Address) (cmd : Option Command) :
    advance c (cmd.map (Command.withLiterals table)) = advance c cmd := by
  rcases cmd with _ | ⟨op, d⟩ | op | d <;> rfl

theorem withLiterals_eq_end_iff (table : Table) (cmd : Option Command) :
    cmd.map (Command.withLiterals table) = some (.dir .endOfProgram) ↔ cmd = some (.dir .endOfProgram) := by
  rcases cmd with _ | ⟨op, d⟩ | op | d <;> simp [Command.withLiterals]

/-- Pass 1 looks at labels and at what a command advances by only. -/
theorem pass1_withLiterals (literals table : Table) (c : Address) (ls : List Line) :
    pass1 table c (ls.map (Line.withLiterals literals)) = pass1 table c ls := by
  induction ls generalizing table c with
  | nil => rfl
  | cons ln ls ih =>
    have hlabel : (ln.withLiterals literals).label = ln.label := rfl
    have hadvance : advance c (ln.withLiterals literals).cmd = advance c ln.cmd :=
      advance_withLiterals literals c ln.cmd
    simp only [List.map_cons, pass1_cons_eq_bind, hlabel, hadvance, ih]

theorem pass2_withLiterals (table : Table) (image : Memory) (c : Address) (ls : List Line) :
    pass2 table image c (ls.map (Line.withLiterals table)) = pass2 table image c ls := by
  induction ls generalizing image c with
  | nil => rfl
  | cons ln ls ih =>
    have hend : (ln.withLiterals table).cmd = some (.dir .endOfProgram) ↔ ln.cmd = some (.dir .endOfProgram) :=
      withLiterals_eq_end_iff table ln.cmd
    have hemit : emit table (ln.withLiterals table).cmd = emit table ln.cmd := emit_withLiterals table ln.cmd
    have hadvance : advance c (ln.withLiterals table).cmd = advance c ln.cmd := advance_withLiterals table c ln.cmd
    rw [List.map_cons]
    by_cases h : ln.cmd = some (.dir .endOfProgram)
    · rw [pass2_cons_end h, pass2_cons_end (hend.2 h)]
    · simp only [pass2_cons_eq_bind h, pass2_cons_eq_bind (mt hend.1 h), hemit, hadvance, ih]

/-- Settles O41: neither pass sees the replacement by the table that pass 1 gives. -/
theorem referencesAssembleAsBoundAddresses : Obligations.ReferencesAssembleAsBoundAddresses := by
  intro lines table image htable himage
  rw [assembleLines, htable] at himage
  rw [assembleLines, pass1_withLiterals, htable]
  dsimp only
  rw [pass2_withLiterals]
  exact himage

end Sys2Proof.Asm

/-! PROOFS. Pass 2 over a list of lines, and the image it makes (spec/45_asm_passes.md R166–R173). -/

namespace Sys2Proof.Asm

open Sys2Proof.Machine (Memory)

/-- Pass 2 over lines with no `end` and more lines: the second part starts from the first one's image and counter
(R166). -/
theorem pass2_append {ls : List Line} (h : hasEnd ls = false) (table : Table) (image : Memory) (c : Address)
    (more : List Line) :
    pass2 table image c (ls ++ more) =
      (pass2 table image c ls).bind fun image' => pass2 table image' (counterAfter c ls) more := by
  induction ls generalizing image c with
  | nil => rfl
  | cons ln ls ih =>
    obtain ⟨hne, hls⟩ := hasEnd_cons.1 h
    rw [List.cons_append, pass2_cons_eq_bind hne, pass2_cons_eq_bind hne]
    cases emit table ln.cmd with
    | error f => rfl
    | ok w => exact ih hls _ _

/-- A line that emits a word or a failure is no `end` line (R172). -/
theorem ne_end_of_emit_error {table : Table} {cmd : Option Command} {f : Failure} (h : emit table cmd = .error f) :
    cmd ≠ some (.dir .endOfProgram) := by
  rintro rfl
  cases h

theorem ne_end_of_emit_word {table : Table} {cmd : Option Command} {w : Word} (h : emit table cmd = .ok (some w)) :
    cmd ≠ some (.dir .endOfProgram) := by
  rintro rfl
  cases h

/-- The failure of pass 2 is that of the first line whose word is not given, before any `end` (R168, R175). -/
theorem pass2_error_iff {table : Table} {image : Memory} {c : Address} {ls : List Line} {f : Failure} :
    pass2 table image c ls = .error f ↔
      ∃ before ln after, ls = before ++ ln :: after ∧ hasEnd before = false ∧ emit table ln.cmd = .error f ∧
        ∃ image', pass2 table image c before = .ok image' := by
  constructor
  · intro h
    induction ls generalizing image c with
    | nil => cases h
    | cons ln ls ih =>
      by_cases hend : ln.cmd = some (.dir .endOfProgram)
      · rw [pass2_cons_end hend] at h; cases h
      · rw [pass2_cons_eq_bind hend] at h
        cases hemit : emit table ln.cmd with
        | error g => rw [hemit] at h; cases h; exact ⟨[], ln, ls, rfl, rfl, hemit, image, rfl⟩
        | ok w =>
          rw [hemit] at h
          obtain ⟨before, ln', after, rfl, hbefore, hfail, image', himage⟩ := ih h
          refine ⟨ln :: before, ln', after, rfl, hasEnd_cons.2 ⟨hend, hbefore⟩, hfail, image', ?_⟩
          rw [pass2_cons_eq_bind hend, hemit]
          exact himage
  · rintro ⟨before, ln, after, rfl, hbefore, hfail, image', himage⟩
    rw [pass2_append hbefore, himage, Except.bind, pass2_cons_eq_bind (ne_end_of_emit_error hfail), hfail]
    rfl

/-- Settles O42: the line that fails is one with an undefined label operand. -/
theorem passTwoRejectsFirstUndefinedLabel : Obligations.PassTwoRejectsFirstUndefinedLabel := by
  intro table image counter lines f
  rw [pass2_error_iff]
  constructor
  · rintro ⟨before, ⟨lbl, cmd⟩, after, rfl, hbefore, hfail, himage⟩
    obtain ⟨op, n, rfl, hn, rfl⟩ := emit_error_iff.1 hfail
    exact ⟨before, op, n, lbl, after, rfl, hbefore, hn, rfl, himage⟩
  · rintro ⟨before, op, n, lbl, after, rfl, hbefore, hn, rfl, himage⟩
    exact ⟨before, _, after, rfl, hbefore, emit_error_iff.2 ⟨op, n, rfl, hn, rfl⟩, himage⟩

/-- Pass 2 keeps the image canonical. -/
theorem wf_of_pass2 {table : Table} {image image' : Memory} {c : Address} {ls : List Line} (hwf : image.wf = true)
    (h : pass2 table image c ls = .ok image') : image'.wf = true := by
  induction ls generalizing image c with
  | nil => cases h; exact hwf
  | cons ln ls ih =>
    by_cases hend : ln.cmd = some (.dir .endOfProgram)
    · rw [pass2_cons_end hend] at h; cases h; exact hwf
    · rw [pass2_cons_eq_bind hend] at h
      cases hemit : emit table ln.cmd with
      | error g => rw [hemit] at h; cases h
      | ok w => rw [hemit] at h; exact ih (wf_place hwf c w) h

/-- Settles O45: `assemble` answers what pass 2 makes of the empty image. -/
theorem assembledImageIsCanonical : Obligations.AssembledImageIsCanonical := by
  intro src image h
  rw [assemble] at h
  split at h
  · cases h
  · rw [assembleLines] at h
    split at h
    · cases h
    · exact wf_of_pass2 (image := []) rfl h

/-- Placing a word leaves every index but the counter's (R167, R169). -/
theorem read_place_of_ne {image : Memory} (hwf : image.wf = true) {c : Address} {j : Index} (h : indexOf c ≠ j)
    (w : Option Word) : (place image c w).read j = image.read j := by
  cases w with
  | none => rfl
  | some w => rw [place, Memory.read_write hwf, if_neg h.symm]

theorem read_place_same {image : Memory} (hwf : image.wf = true) (c : Address) (w : Word) :
    (place image c (some w)).read (indexOf c) = w := by
  rw [place, Memory.read_write hwf, if_pos rfl]

theorem writesIndex_cons {ln : Line} (h : ln.cmd ≠ some (.dir .endOfProgram)) {j : Index} {c : Address}
    {ls : List Line} : writesIndex j c (ln :: ls) = false ↔
      (placesWord ln.cmd = true → indexOf c ≠ j) ∧ writesIndex j (advance c ln.cmd) ls = false := by
  simp [writesIndex, h]

/-- An index that no line before the `end` writes keeps its word (R171, R172). -/
theorem read_of_not_written {table : Table} {image image' : Memory} {c : Address} {ls : List Line} {j : Index}
    (hwf : image.wf = true) (h : pass2 table image c ls = .ok image') (hj : writesIndex j c ls = false) :
    image'.read j = image.read j := by
  induction ls generalizing image c with
  | nil => cases h; rfl
  | cons ln ls ih =>
    by_cases hend : ln.cmd = some (.dir .endOfProgram)
    · rw [pass2_cons_end hend] at h; cases h; rfl
    · rw [pass2_cons_eq_bind hend] at h
      obtain ⟨hne, hrest⟩ := (writesIndex_cons hend).1 hj
      cases hemit : emit table ln.cmd with
      | error g => rw [hemit] at h; cases h
      | ok w =>
        rw [hemit] at h
        rw [ih (wf_place hwf c w) h hrest]
        cases w with
        | none => rfl
        | some w => exact read_place_of_ne hwf (hne (isSome_emit hemit).symm) _

/-- Settles O43: the image is empty at first; a word once placed stays where no later line writes its index. -/
theorem imageHoldsLastWordPlaced : Obligations.ImageHoldsLastWordPlaced := by
  intro table lines image h
  refine ⟨fun j hj => read_of_not_written (image := []) rfl h hj, ?placed⟩
  rintro before after ln w rfl hbefore hemit hafter
  rw [pass2_append hbefore] at h
  cases himage : pass2 table [] 0 before with
  | error f => rw [himage] at h; cases h
  | ok image₁ =>
    rw [himage, Except.bind, pass2_cons_eq_bind (ne_end_of_emit_word hemit), hemit] at h
    have hwf : image₁.wf = true := wf_of_pass2 (image := []) rfl himage
    rw [counterAfter_append, counterAfter_singleton] at hafter
    rw [read_of_not_written (wf_place hwf _ _) h hafter, read_place_same hwf]

/-- An addressed instruction's word is given once its operand resolves (R168). -/
theorem emit_addressed {table : Table} {d : Direction} {a : Address} (h : resolve table d = .ok a) (op : AddressedOp) :
    emit table (some (.addressed op d)) = .ok (some (encode (op.toInstr a))) := by
  rw [emit, h]
  rfl

/-- Settles O44: a literal resolves to itself and a bound label to its Address; the other words need no table. -/
theorem linesPlaceTheirEncodings : Obligations.LinesPlaceTheirEncodings := by
  intro table n x a v op p
  refine ⟨emit_addressed rfl op, fun hn => emit_addressed ?_ op, rfl, rfl⟩
  rw [resolve, hn]

end Sys2Proof.Asm

/-! PROOFS. The boot order (spec/70_reset_and_hazards.md R223). -/

namespace Sys2Proof.Machine

/-- A block booted with an image (R223): registers reset, the image in memory, no history. -/
def bootedWith (image : Memory) : Block :=
  { core := { acc := 0, pc := 0, ir := 0, mem := image.canonical, hist := [] }, registersReset := true }

/-- Settles O34: the assembled image is canonical, so it is itself what `set_memory` stores; then index 0 is fetched. -/
theorem bootRunsWordZeroOfImage : Obligations.BootRunsWordZeroOfImage := by
  intro b src image h
  have hcanonical : image.canonical = image := Memory.canonical_of_wf (Asm.assembledImageIsCanonical src image h)
  have hreply : assembleReply src = .image image := by rw [assembleReply, h]
  refine ⟨_, bootedWith image, _, ?assembled, rfl, rfl, rfl, rfl, _, _, step_eq _, transact_step rfl, ?boot⟩
  case assembled => rw [transact_assemble, hreply]
  case boot =>
    rw [exec_eq, bootedWith, hcanonical]
    rfl

end Sys2Proof.Machine

/-! PROOFS. The spellings of label fields and operands (spec/44_asm_parser.md R135, R139–R141). -/

namespace Sys2Proof.Asm

section Names

theorem isNameChar_of_mem {n : List Char} (h : isName n = true) : ∀ c ∈ n, isNameChar c = true := by
  cases n with
  | nil => cases h
  | cons c cs =>
    rw [isName, Bool.and_eq_true, List.all_eq_true] at h
    obtain ⟨hletter, hrest⟩ := h
    rintro x (_ | ⟨_, hx⟩)
    · rw [isNameChar, hletter]; rfl
    · exact hrest x hx

/-- Every letter is above every digit. -/
theorem isDigit_of_isLetter {c : Char} (h : isLetter c = true) : isDigit c = false := by
  rw [← Bool.not_eq_true]
  simp only [isLetter, isDigit, Bool.or_eq_true, Bool.and_eq_true, decide_eq_true_eq] at h ⊢
  rintro ⟨-, h9⟩
  obtain ⟨hA, -⟩ | ⟨ha, -⟩ := h
  · exact absurd (hA.trans h9) (by decide)
  · exact absurd (ha.trans h9) (by decide)

/-- A name begins with a letter, a digit string with a digit. -/
theorem isDigits_of_isName {n : List Char} (h : isName n = true) : isDigits n = false := by
  cases n with
  | nil => cases h
  | cons c cs =>
    rw [isName, Bool.and_eq_true] at h
    rw [isDigits, List.all_cons, isDigit_of_isLetter h.1, Bool.false_and, Bool.and_false]

theorem stripColon_append_colon (n : List Char) : stripColon (n ++ [':']) = n := by simp [stripColon]

/-- A name has no colon in it, so none at its end (R133). -/
theorem stripColon_of_isName {n : List Char} (h : isName n = true) : stripColon n = n :=
  if_neg fun hlast => absurd (isNameChar_of_mem h ':' (List.mem_of_getLast? hlast)) (by decide)

/-- What `stripColon` removes is one colon or nothing (R135). -/
theorem eq_stripColon_or (cs : List Char) : cs = stripColon cs ∨ cs = stripColon cs ++ [':'] := by
  rw [stripColon]
  split
  · next h =>
    obtain ⟨n, rfl⟩ := List.getLast?_eq_some_iff.1 h
    exact .inr (by simp)
  · exact .inl rfl

/-- The label field is read as the name `n` when it is `n` with at most one colon (R135). -/
theorem parseLabel_ok_iff {t : Token} {n : LabelName} :
    parseLabel t = .ok n ↔ isName n = true ∧ (t.text = n ∨ t.text = n ++ [':']) := by
  have hok : parseLabel t = .ok n ↔ isName (stripColon t.text) = true ∧ stripColon t.text = n := by
    rw [parseLabel]
    split <;> simp [failAt, *]
  rw [hok]
  constructor
  · rintro ⟨hname, rfl⟩
    exact ⟨hname, eq_stripColon_or t.text⟩
  · rintro ⟨hname, htext | htext⟩
    · rw [htext, stripColon_of_isName hname]; exact ⟨hname, rfl⟩
    · rw [htext, stripColon_append_colon]; exact ⟨hname, rfl⟩

/-- A label field that is no name with its colon removed is the only failure (R135, R146). -/
theorem parseLabel_error_iff {t : Token} {f : Failure} :
    parseLabel t = .error f ↔
      isName (stripColon t.text) = false ∧ f = { error := .invalidLabelName, rest := some t.rest } := by
  rw [parseLabel]
  split
  · simp [*]
  · simp [failAt, *, eq_comm]

/-- Settles O49: the name is the field without its colon, and the check on it is the only one. -/
theorem labelFieldIsNameWithOptionalColon : Obligations.LabelFieldIsNameWithOptionalColon := by
  refine fun t => ⟨fun n => parseLabel_ok_iff, fun hnone => parseLabel_error_iff.2 ⟨?_, rfl⟩⟩
  rw [← Bool.not_eq_true]
  exact fun hname => hnone ⟨stripColon t.text, hname, eq_stripColon_or t.text⟩

end Names

section Spellings

variable {ds n : List Char} (rest : Source)

theorem classify_digits (h : isDigits ds = true) :
    classify { text := ds, rest := rest } = (parseLiteral { text := ds, rest := rest } ds).map .number := by
  rw [classify_of_not_slash (isDigits_ne_slash h), if_pos h]

theorem classify_slash_digits (h : isDigits ds = true) :
    classify { text := '/' :: ds, rest := rest } =
      (parseLiteral { text := '/' :: ds, rest := rest } ds).map .address := by
  rw [classify_slash]
  exact if_pos h

/-- A minus sign begins neither a digit string nor a name. -/
theorem classify_slash_minus (ds : List Char) :
    classify { text := '/' :: '-' :: ds, rest := rest } =
      if isDigits ds then
        (parseLiteral { text := '/' :: '-' :: ds, rest := rest } ds).map fun n => .address (negatedAddress n)
      else failAt { text := '/' :: '-' :: ds, rest := rest } .parseError := by
  have hdigits : isDigits ('-' :: ds) ≠ true := fun h => by
    simp [isDigits, show isDigit '-' = false from rfl] at h
  have hname : isName ('-' :: ds) ≠ true := fun h => by
    simp [isName, show isLetter '-' = false from rfl] at h
  rw [classify_slash, classifySlash, if_neg hdigits, if_neg hname]

theorem classify_name (h : isName n = true) : classify { text := n, rest := rest } = .ok (.label n) := by
  rw [classify_of_not_slash (isName_ne_slash h), if_neg (by rw [isDigits_of_isName h]; decide), if_pos h]

theorem classify_slash_name (h : isName n = true) : classify { text := '/' :: n, rest := rest } = .ok (.label n) := by
  have hdigits : isDigits n ≠ true := by rw [isDigits_of_isName h]; decide
  rw [classify_slash]
  exact (if_neg hdigits).trans (if_pos h)

theorem parseLiteral_of_le (t : Token) (h : decimalValue ds ≤ 4095) :
    parseLiteral t ds = .ok (BitVec.ofNat 12 (decimalValue ds)) := if_pos h

theorem parseLiteral_of_lt (t : Token) (h : 4095 < decimalValue ds) : parseLiteral t ds = failAt t .invalidNumber :=
  if_neg (Nat.not_le.2 h)

/-- The slash-minus form's Address from the number it holds (R141). -/
theorem negatedAddress_ofNat {k : Nat} (h : k ≤ 4095) :
    negatedAddress (BitVec.ofNat 12 k) = BitVec.ofNat 12 ((4096 - k) % 4096) := by
  rw [negatedAddress, BitVec.toNat_ofNat, Nat.mod_eq_of_lt (show k < 2 ^ 12 by omega)]

theorem classify_slash_minus_digits (h : isDigits ds = true) (hle : decimalValue ds ≤ 4095) :
    classify { text := '/' :: '-' :: ds, rest := rest } =
      .ok (.address (BitVec.ofNat 12 ((4096 - decimalValue ds) % 4096))) := by
  rw [classify_slash_minus, if_pos h, parseLiteral_of_le _ hle, ← negatedAddress_ofNat hle]
  rfl

end Spellings

/-- Settles O51: each form holds one literal, whose bound is its only check. -/
theorem literalsRangeTo4095 : Obligations.LiteralsRangeTo4095 := by
  intro ds rest hds
  refine ⟨fun hle => ⟨?_, ?_, classify_slash_minus_digits rest hds hle⟩, fun hlt => ⟨?_, ?_, ?_⟩⟩
  · rw [classify_digits rest hds, parseLiteral_of_le _ hle]; rfl
  · rw [classify_slash_digits rest hds, parseLiteral_of_le _ hle]; rfl
  · rw [classify_digits rest hds, parseLiteral_of_lt _ hlt]; rfl
  · rw [classify_slash_digits rest hds, parseLiteral_of_lt _ hlt]; rfl
  · rw [classify_slash_minus, if_pos hds, parseLiteral_of_lt _ hlt]; rfl

/-- Settles O52: the Address is the distance from 4096, and 4096 is a multiple of 512. -/
theorem slashMinusIsDistanceFrom4096 : Obligations.SlashMinusIsDistanceFrom4096 := by
  intro ds rest hds hle
  have hvalue : (BitVec.ofNat 12 ((4096 - decimalValue ds) % 4096)).toNat = (4096 - decimalValue ds) % 4096 := by
    rw [BitVec.toNat_ofNat, show 2 ^ 12 = 4096 from rfl, Nat.mod_mod]
  refine ⟨_, classify_slash_minus_digits rest hds hle, hvalue, fun h1 h512 => ?_⟩
  rw [indexOf_toNat, hvalue]
  omega

/-- The texts of R139's five spellings: a number or a name, bare or after a slash, or a number after a slash and a minus
sign. -/
def IsSpelling (text : List Char) : Prop :=
  ∃ body, (isDigits body = true ∨ isName body = true) ∧ (text = body ∨ text = '/' :: body) ∨
    isDigits body = true ∧ text = '/' :: '-' :: body

/-- A literal's only failure is `InvalidNumber` (R140). -/
theorem map_parseLiteral_ne_parseError {β : Type} (t : Token) (ds : List Char) (g : Word → β) (rest : Option Source) :
    (parseLiteral t ds).map g ≠ .error { error := .parseError, rest := rest } := by
  rw [parseLiteral]
  split <;> simp [failAt, Except.map]

theorem classify_ne_parseError_of_isSpelling {t : Token} (h : IsSpelling t.text) (rest : Option Source) :
    classify t ≠ .error { error := .parseError, rest := rest } := by
  obtain ⟨text, src⟩ := t
  obtain ⟨body, ⟨hdigits | hname, rfl | rfl⟩ | ⟨hdigits, rfl⟩⟩ := h
  · rw [classify_digits src hdigits]; exact map_parseLiteral_ne_parseError _ _ _ _
  · rw [classify_slash_digits src hdigits]; exact map_parseLiteral_ne_parseError _ _ _ _
  · rw [classify_name src hname]; nofun
  · rw [classify_slash_name src hname]; nofun
  · rw [classify_slash_minus, if_pos hdigits]; exact map_parseLiteral_ne_parseError _ _ _ _

theorem classify_of_not_isSpelling {t : Token} (h : ¬ IsSpelling t.text) : classify t = failAt t .parseError := by
  obtain ⟨text, src⟩ := t
  have hbody : ∀ body, text = body ∨ text = '/' :: body → isDigits body ≠ true ∧ isName body ≠ true :=
    fun body htext => ⟨fun hd => h ⟨body, .inl ⟨.inl hd, htext⟩⟩, fun hn => h ⟨body, .inl ⟨.inr hn, htext⟩⟩⟩
  by_cases hslash : ∃ body, text = '/' :: body
  · obtain ⟨body, rfl⟩ := hslash
    obtain ⟨hdigits, hname⟩ := hbody body (.inr rfl)
    rw [classify_slash]
    refine (if_neg hdigits).trans ((if_neg hname).trans ?_)
    split
    · next ds => exact if_neg fun hds => h ⟨ds, .inr ⟨hds, rfl⟩⟩
    · rfl
  · obtain ⟨hdigits, hname⟩ := hbody text (.inl rfl)
    rw [classify_of_not_slash fun body hb => hslash ⟨body, hb⟩, if_neg hdigits, if_neg hname]

end Sys2Proof.Asm

/-! PROOFS. What a mnemonic makes of its operand tokens (spec/44_asm_parser.md R142–R145). -/

namespace Sys2Proof.Asm

section Operand

variable {α : Type} {kind : Token → OperandForm → Except Failure α} {t : Token} {form : OperandForm} {v : α}
  {f : Failure} (m : Token) (more : List Token)

theorem parseOperand_misspelled (h : classify t = .error f) : parseOperand m kind (t :: more) = .error f := by
  rw [parseOperand_cons_eq_bind, h]
  rfl

theorem parseOperand_wrongKind (h : classify t = .ok form) (hkind : kind t form = .error f) :
    parseOperand m kind (t :: more) = .error f := by
  rw [parseOperand_cons_eq_bind, h, Except.bind, hkind]
  rfl

theorem parseOperand_single (h : classify t = .ok form) (hkind : kind t form = .ok v) :
    parseOperand m kind [t] = .ok v := by
  rw [parseOperand_cons_eq_bind, h, Except.bind, hkind]
  rfl

theorem parseOperand_surplus {more : List Token} (h : parseOperand m kind [t] = .ok v)
    (hmore : checkSurplus more = .error f) : parseOperand m kind (t :: more) = .error f := by
  obtain ⟨u, form, hu, hform, hkind⟩ := parseOperand_ok h
  cases hu
  rw [parseOperand_cons_eq_bind, hform, Except.bind, hkind, Except.bind, hmore]
  rfl

end Operand

theorem map_ok {α β : Type} {x : Except Failure α} {g : α → β} {b : β} (h : x.map g = .ok b) : ∃ a, x = .ok a := by
  cases x with
  | error f => cases h
  | ok a => exact ⟨a, rfl⟩

/-- Settles O53: each clause is one check of `parseOperand` or `checkSurplus`. -/
theorem operandKindsChecked : Obligations.OperandKindsChecked := by
  intro m t more op p v n
  refine ⟨rfl, rfl, fun hspelled => ?untaken, ?missing, fun hc => ?number, fun hc => ?address, fun hc => ?label⟩
  case untaken => rw [parseMnemonic, parseMnemonic, checkSurplus_cons hspelled]; exact ⟨rfl, rfl⟩
  case missing => rintro k (rfl | rfl | rfl | rfl) <;> rfl
  case number =>
    simp only [parseMnemonic, parseOperand_single m hc (kind := asNumber) rfl,
      parseOperand_wrongKind m more hc (kind := asDirection) rfl,
      parseOperand_wrongKind m more hc (kind := asAddress) rfl]
    exact ⟨rfl, rfl, rfl, rfl⟩
  case address =>
    simp only [parseMnemonic, parseOperand_single m hc (kind := asDirection) rfl,
      parseOperand_single m hc (kind := asAddress) rfl, parseOperand_wrongKind m more hc (kind := asNumber) rfl]
    exact ⟨rfl, rfl, rfl, rfl⟩
  case label =>
    simp only [parseMnemonic, parseOperand_single m hc (kind := asDirection) rfl,
      parseOperand_wrongKind m more hc (kind := asAddress) rfl, parseOperand_wrongKind m more hc (kind := asNumber) rfl]
    exact ⟨rfl, rfl, rfl, rfl⟩

/-- A mnemonic's operand tokens, once accepted, are as many as it takes (R144). -/
theorem length_of_parseMnemonic_ok {m : Token} {ops : List Token} {k : Mnemonic} {c : Command}
    (h : parseMnemonic m ops k = .ok c) : ops.length = k.operandKind.isSome.toNat := by
  have hone : ∀ {α : Type} {kind : Token → OperandForm → Except Failure α} {v : α},
      parseOperand m kind ops = .ok v → ops.length = 1 := fun h => by
    obtain ⟨t, -, rfl, -⟩ := parseOperand_ok h
    rfl
  cases k with
  | addressed op => obtain ⟨v, hv⟩ := map_ok h; exact hone hv
  | org => obtain ⟨v, hv⟩ := map_ok h; exact hone hv
  | data => obtain ⟨v, hv⟩ := map_ok h; exact hone hv
  | reserve => obtain ⟨v, hv⟩ := map_ok h; exact hone hv
  | plain op => obtain ⟨u, hu⟩ := map_ok h; rw [checkSurplus_ok hu]; rfl
  | endOfProgram => obtain ⟨u, hu⟩ := map_ok h; rw [checkSurplus_ok hu]; rfl

/-- Tokens after accepted operands fail as surplus tokens do (R144). -/
theorem parseMnemonic_surplus {m : Token} {ops more : List Token} {k : Mnemonic} {c : Command} {f : Failure}
    (h : parseMnemonic m ops k = .ok c) (hmore : checkSurplus more = .error f) :
    parseMnemonic m (ops ++ more) k = .error f := by
  have hone : ∀ {α : Type} {kind : Token → OperandForm → Except Failure α} {g : α → Command},
      (parseOperand m kind ops).map g = .ok c → (parseOperand m kind (ops ++ more)).map g = .error f := fun h => by
    obtain ⟨v, hv⟩ := map_ok h
    obtain ⟨t, -, rfl, -⟩ := parseOperand_ok hv
    rw [List.singleton_append, parseOperand_surplus m hv hmore]
    rfl
  have hnone : ∀ {g : Unit → Command},
      (checkSurplus ops).map g = .ok c → (checkSurplus (ops ++ more)).map g = .error f := fun h => by
    obtain ⟨u, hu⟩ := map_ok h
    rw [checkSurplus_ok hu, List.nil_append, hmore]
    rfl
  cases k with
  | addressed op => exact hone h
  | org => exact hone h
  | data => exact hone h
  | reserve => exact hone h
  | plain op => exact hnone h
  | endOfProgram => exact hnone h

/-- Settles O56: the accepted tokens are as many as the mnemonic takes, and what follows them is checked as surplus. -/
theorem surplusTokensRejected : Obligations.SurplusTokensRejected := fun _ _ _ _ h =>
  ⟨length_of_parseMnemonic_ok h, fun _ _ hspelled => parseMnemonic_surplus h (checkSurplus_cons hspelled),
    fun _ _ _ _ hspelled ht => parseMnemonic_surplus h (checkSurplus_error hspelled ht)⟩

/-- A misspelled first operand fails its mnemonic, whether it takes an operand or not (R145). -/
theorem parseMnemonic_misspelled {t : Token} {f : Failure} (h : classify t = .error f) (m : Token) (more : List Token)
    (k : Mnemonic) : parseMnemonic m (t :: more) k = .error f := by
  have hsurplus : checkSurplus (t :: more) = .error f := checkSurplus_error (ts := []) nofun h
  cases k with
  | addressed op => rw [parseMnemonic, parseOperand_misspelled m more h]; rfl
  | org => rw [parseMnemonic, parseOperand_misspelled m more h]; rfl
  | data => rw [parseMnemonic, parseOperand_misspelled m more h]; rfl
  | reserve => rw [parseMnemonic, parseOperand_misspelled m more h]; rfl
  | plain op => rw [parseMnemonic, hsurplus]; rfl
  | endOfProgram => rw [parseMnemonic, hsurplus]; rfl

/-- Settles O57: the five spellings are those that do not fail with `ParseError`. -/
theorem operandSpellingsClassified : Obligations.OperandSpellingsClassified := by
  refine ⟨fun n rest h => ⟨classify_name rest h, classify_slash_name rest h⟩, fun t => ⟨?spelled, ?malformed⟩,
    fun m t more k f h => parseMnemonic_misspelled h m more k⟩
  case spelled => exact fun h hspelled => classify_ne_parseError_of_isSpelling hspelled _ h
  case malformed => exact classify_of_not_isSpelling

/-- Settles O47: a fixed source, evaluated. -/
theorem sourceExampleParses : Obligations.SourceExampleParses := by
  unfold Obligations.SourceExampleParses
  decide

end Sys2Proof.Asm

/-! PROOFS. The parser reads a printed list of lines back (spec/44_asm_parser.md R131–R139). -/

namespace Sys2Proof.Asm

section Words

/-- The texts of a line's tokens. -/
def lineTexts (src : Source) : List (List Char) := (lexLine none src).map (·.text)

/-- A word: token characters, one at least (R133). -/
def IsWord (w : List Char) : Prop := w ≠ [] ∧ ∀ c ∈ w, isTokenChar c = true

theorem lineTexts_space (cs : Source) : lineTexts (' ' :: cs) = lineTexts cs := by
  rw [lineTexts, lexLine_space]
  rfl

/-- A word before a space is a token (R133). -/
theorem lineTexts_word_space {w : List Char} (h : IsWord w) (cs : Source) :
    lineTexts (w ++ ' ' :: cs) = w :: lineTexts cs := by
  obtain ⟨hne, hchars⟩ := h
  cases w with
  | nil => exact absurd rfl hne
  | cons c ts =>
    rw [lineTexts, lexLine_word hchars, lexLine_space]
    rfl

/-- A word at the end of a line is a token (R133). -/
theorem lineTexts_word {w : List Char} (h : IsWord w) : lineTexts w = [w] := by
  obtain ⟨hne, hchars⟩ := h
  cases w with
  | nil => exact absurd rfl hne
  | cons c ts =>
    have hlex := lexLine_word hchars []
    rw [List.append_nil] at hlex
    rw [lineTexts, hlex]
    rfl

theorem newline_notMem_of_isWord {w : List Char} (h : IsWord w) : '\n' ∉ w := fun hmem =>
  absurd (h.2 _ hmem) (by decide)

/-- Words with single spaces between them are the line's tokens (R133). -/
theorem lineTexts_words {w : List Char} {ws : List (List Char)} (h : ∀ x ∈ w :: ws, IsWord x) :
    lineTexts (w ++ ws.flatMap (' ' :: ·)) = w :: ws := by
  induction ws generalizing w with
  | nil => rw [List.flatMap_nil, List.append_nil, lineTexts_word (h w (List.mem_cons_self ..))]
  | cons v ws ih =>
    rw [List.forall_mem_cons] at h
    rw [List.flatMap_cons, List.cons_append, lineTexts_word_space h.1, ih h.2]

theorem isWord_of_isName {n : List Char} (h : isName n = true) : IsWord n := by
  obtain ⟨c, cs, rfl, hchars⟩ := tokenChars_of_isName h
  exact ⟨List.cons_ne_nil c cs, hchars⟩

theorem isWord_append_singleton {w : List Char} (h : IsWord w) {c : Char} (hc : isTokenChar c = true) :
    IsWord (w ++ [c]) := by
  refine ⟨by simp, fun x hx => ?_⟩
  rcases List.mem_append.1 hx with hx | hx
  · exact h.2 x hx
  · rw [List.mem_singleton.1 hx]; exact hc

theorem isWord_printNumber (v : Word) : IsWord (printNumber v) :=
  ⟨List.cons_ne_nil _ _, tokenChars_of_isDigits (isDigits_printNumber v)⟩

theorem isWord_slash {w : List Char} (h : IsWord w) : IsWord ('/' :: w) :=
  ⟨List.cons_ne_nil _ _, List.forall_mem_cons.2 ⟨rfl, h.2⟩⟩

theorem isWord_printDirection {d : Direction} (h : d.spellable = true) : IsWord (printDirection d) := by
  cases d with
  | lit a => exact isWord_slash (isWord_printNumber a)
  | sym n => exact isWord_of_isName h

end Words

section Commands

/-- The words a command is printed as: its mnemonic and its operand, if it has one (R133). -/
def commandWords : Command → List Char × List (List Char)
  | .addressed op d => (op.mnemonic, [printDirection d])
  | .plain op => (op.mnemonic, [])
  | .dir (.org a) => (['o', 'r', 'g'], ['/' :: printNumber a])
  | .dir (.data v) => (['d', 'a', 't', 'a'], [printNumber v])
  | .dir (.reserve n) => (['r', 'e', 's'], [printNumber n])
  | .dir .endOfProgram => (['e', 'n', 'd'], [])

/-- A command is printed as its words with a space before each but the first (R133). -/
theorem printCommand_eq_words (c : Command) :
    printCommand c = (commandWords c).1 ++ (commandWords c).2.flatMap (' ' :: ·) := by
  rcases c with ⟨op, d⟩ | op | (a | v | n | _) <;> simp [printCommand, printDirective, commandWords]

theorem isWord_commandWords {c : Command} (h : c.spellable = true) :
    ∀ w ∈ (commandWords c).1 :: (commandWords c).2, IsWord w := by
  have hpair : ∀ {m w : List Char}, isName m = true → IsWord w → ∀ x ∈ [m, w], IsWord x := fun hm hw =>
    List.forall_mem_cons.2 ⟨isWord_of_isName hm, List.forall_mem_singleton.2 hw⟩
  have halone : ∀ {m : List Char}, isName m = true → ∀ x ∈ [m], IsWord x := fun hm =>
    List.forall_mem_singleton.2 (isWord_of_isName hm)
  rcases c with ⟨op, d⟩ | op | (a | v | n | _)
  · exact hpair (by cases op <;> rfl) (isWord_printDirection h)
  · exact halone (by cases op <;> rfl)
  · exact hpair rfl (isWord_slash (isWord_printNumber a))
  · exact hpair rfl (isWord_printNumber v)
  · exact hpair rfl (isWord_printNumber n)
  · exact halone rfl

/-- A command's words are the tokens of its spelling (R133). -/
theorem lineTexts_printCommand {c : Command} (h : c.spellable = true) :
    lineTexts (printCommand c) = (commandWords c).1 :: (commandWords c).2 := by
  rw [printCommand_eq_words]
  exact lineTexts_words (isWord_commandWords h)

theorem newline_notMem_printCommand {c : Command} (h : c.spellable = true) : '\n' ∉ printCommand c := by
  have hwords := isWord_commandWords h
  rw [List.forall_mem_cons] at hwords
  obtain ⟨hmnemonic, hoperands⟩ := hwords
  simp only [printCommand_eq_words, List.mem_append, List.mem_flatMap, List.mem_cons, not_or, not_exists, not_and]
  exact ⟨newline_notMem_of_isWord hmnemonic, fun w hw => ⟨by decide, newline_notMem_of_isWord (hoperands w hw)⟩⟩

theorem parseLiteral_printNumber (t : Token) (v : Word) : parseLiteral t (printNumber v) = .ok v := by
  have hlt : v.toNat < 4096 := v.isLt
  rw [parseLiteral_of_le t (by rw [decimalValue_printNumber]; omega), decimalValue_printNumber, BitVec.ofNat_toNat,
    BitVec.setWidth_eq]

theorem classify_printNumber (v : Word) (rest : Source) :
    classify { text := printNumber v, rest := rest } = .ok (.number v) := by
  rw [classify_digits rest (isDigits_printNumber v), parseLiteral_printNumber]
  rfl

theorem classify_slash_printNumber (v : Word) (rest : Source) :
    classify { text := '/' :: printNumber v, rest := rest } = .ok (.address v) := by
  rw [classify_slash_digits rest (isDigits_printNumber v), parseLiteral_printNumber]
  rfl

/-- A printed Direction is accepted as an instruction's operand and read back (R142). -/
theorem parseOperand_printDirection {d : Direction} (h : d.spellable = true) (m : Token) (rest : Source) :
    parseOperand m asDirection [{ text := printDirection d, rest := rest }] = .ok d := by
  cases d with
  | lit a => exact parseOperand_single m (classify_slash_printNumber a rest) rfl
  | sym n => exact parseOperand_single m (classify_name rest h) rfl

/-- A text at no position, as a token: what `Token.unplaced` makes of a token. -/
def wordToken (w : List Char) : Token := { text := w, rest := [] }

theorem parseCommand_of_parseMnemonic {m : Token} {ops : List Token} {k : Mnemonic} {c : Command}
    (hk : lookupMnemonic m.text = some k) (h : parseMnemonic m ops k = .ok c) :
    parseCommand (m :: ops) = .ok (some c) := by
  rw [parseCommand_known hk, h]
  rfl

/-- The words of a printed command parse to it (R137–R142). -/
theorem parseCommand_commandWords {c : Command} (h : c.spellable = true) :
    parseCommand (wordToken (commandWords c).1 :: (commandWords c).2.map wordToken) = .ok (some c) := by
  rcases c with ⟨op, d⟩ | op | (a | v | n | _)
  · refine parseCommand_of_parseMnemonic (k := .addressed op) (by cases op <;> rfl) ?_
    exact congrArg (Except.map (Command.addressed op)) (parseOperand_printDirection h _ _)
  · exact parseCommand_of_parseMnemonic (k := .plain op) (by cases op <;> rfl) rfl
  · refine parseCommand_of_parseMnemonic (k := .org) rfl ?_
    exact congrArg (Except.map fun a => Command.dir (.org a))
      (parseOperand_single (kind := asAddress) _ (classify_slash_printNumber a _) rfl)
  · refine parseCommand_of_parseMnemonic (k := .data) rfl ?_
    exact congrArg (Except.map fun v => Command.dir (.data v))
      (parseOperand_single (kind := asNumber) _ (classify_printNumber v _) rfl)
  · refine parseCommand_of_parseMnemonic (k := .reserve) rfl ?_
    exact congrArg (Except.map fun n => Command.dir (.reserve n))
      (parseOperand_single (kind := asNumber) _ (classify_printNumber n _) rfl)
  · exact parseCommand_of_parseMnemonic (k := .endOfProgram) rfl rfl

end Commands

section Lines

/-- The words of a printed label field and of a printed command field (R133). -/
def labelWords (label : Option LabelName) : List (List Char) := label.toList.map (· ++ [':'])

def commandFieldWords : Option Command → List (List Char)
  | some c => (commandWords c).1 :: (commandWords c).2
  | none => []

theorem lineTexts_printCommandField {cmd : Option Command} (h : cmd.all Command.spellable = true) :
    lineTexts (printCommandField cmd) = commandFieldWords cmd := by
  cases cmd with
  | none => rfl
  | some c => exact lineTexts_printCommand h

theorem lineTexts_printLine {ln : Line} (h : ln.spellable = true) :
    lineTexts (printLine ln) = labelWords ln.label ++ commandFieldWords ln.cmd := by
  obtain ⟨label, cmd⟩ := ln
  rw [Line.spellable, Bool.and_eq_true] at h
  obtain ⟨hlabel, hcmd⟩ := h
  rw [← lineTexts_printCommandField hcmd]
  cases label with
  | none => exact lineTexts_space _
  | some n => exact lineTexts_word_space (isWord_append_singleton (isWord_of_isName hlabel) rfl) _

theorem parseCommand_commandFieldWords {cmd : Option Command} (h : cmd.all Command.spellable = true) :
    parseCommand ((commandFieldWords cmd).map wordToken) = .ok cmd := by
  cases cmd with
  | none => rfl
  | some c => exact parseCommand_commandWords h

/-- A printed line has a label field exactly when it has a label (R134). -/
theorem hasLabelField_printLine {ln : Line} (h : ln.spellable = true) :
    hasLabelField (printLine ln) = ln.label.isSome := by
  obtain ⟨label, cmd⟩ := ln
  cases label with
  | none => rfl
  | some n =>
    rw [Line.spellable, Bool.and_eq_true] at h
    obtain ⟨c, cs, rfl, hchars⟩ := tokenChars_of_isName h.1
    exact hchars c (List.mem_cons_self ..)

/-- The words of a printed line parse to it. -/
theorem parseTokens_lineWords {ln : Line} (h : ln.spellable = true) :
    parseTokens ln.label.isSome ((labelWords ln.label ++ commandFieldWords ln.cmd).map wordToken) = .ok ln := by
  obtain ⟨label, cmd⟩ := ln
  rw [Line.spellable, Bool.and_eq_true] at h
  obtain ⟨hlabel, hcmd⟩ := h
  have hcommand := parseCommand_commandFieldWords hcmd
  cases label with
  | none =>
    exact congrArg (Except.map fun c => Line.mk none c) hcommand
  | some n =>
    have hname : parseLabel (wordToken (n ++ [':'])) = .ok n := parseLabel_ok_iff.2 ⟨hlabel, .inr rfl⟩
    refine (parseTokens_labelled_eq_bind _ _).trans ?_
    rw [hname]
    exact congrArg (Except.map fun c => Line.mk (some n) c) hcommand

theorem toOption_eq_some_iff {α : Type} {x : Except Failure α} {a : α} : x.toOption = some a ↔ x = .ok a := by
  cases x <;> simp [Except.toOption]

/-- A printed line parses to the line, whatever lines follow it (R133). -/
theorem parseLine_printLine {ln : Line} (h : ln.spellable = true) (rest : Source) :
    parseLine (printLine ln ++ '\n' :: rest) = .ok ln := by
  have htexts : (lexLine none (printLine ln)).map (·.text) =
      ((labelWords ln.label ++ commandFieldWords ln.cmd).map wordToken).map (·.text) := by
    rw [List.map_map]
    exact (lineTexts_printLine h).trans (List.map_id _).symm
  rw [← toOption_eq_some_iff, parseLine_append (endsText_newline rest), parseLine, hasLabelField_printLine h,
    parseTokens_of_sameTexts htexts, parseTokens_lineWords h]
  rfl

theorem newline_notMem_printLine {ln : Line} (h : ln.spellable = true) : '\n' ∉ printLine ln := by
  obtain ⟨label, cmd⟩ := ln
  rw [Line.spellable, Bool.and_eq_true] at h
  obtain ⟨hlabel, hcmd⟩ := h
  have hfield : '\n' ∉ printLabelField label := by
    cases label with
    | none => exact List.not_mem_nil
    | some n => exact newline_notMem_of_isWord (isWord_append_singleton (isWord_of_isName hlabel) rfl)
  have hcommand : '\n' ∉ printCommandField cmd := by
    cases cmd with
    | none => exact List.not_mem_nil
    | some c => exact newline_notMem_printCommand hcmd
  rw [printLine, List.mem_append, List.mem_cons, not_or, not_or]
  exact ⟨hfield, by decide, hcommand⟩

theorem printLine_ne_nil (ln : Line) : printLine ln ≠ [] :=
  List.append_ne_nil_of_right_ne_nil _ (List.cons_ne_nil _ _)

/-- Settles O46, by induction on the lines: each is printed as one line of the source and parses to itself. -/
theorem parserReadsPrintedLines : Obligations.ParserReadsPrintedLines := by
  intro lines
  induction lines with
  | nil => exact fun _ => rfl
  | cons ln more ih =>
    intro h
    rw [List.all_cons, Bool.and_eq_true] at h
    obtain ⟨hline, hmore⟩ := h
    have hrest : parseLines (lineStarts true (printLines more)) = .ok more := ih hmore
    rw [parse, printLines, lineStarts_true_append (newline_notMem_printLine hline) (printLine_ne_nil ln),
      parseLines_cons_eq_bind, parseLine_printLine hline, hrest]
    rfl

end Lines

end Sys2Proof.Asm

/-! PROOFS. A parse failure points at the token whose check failed (spec/44_asm_parser.md R145, R146). -/

namespace Sys2Proof.Asm

/-- The failure `f` is that of a check on one of the line's tokens, and carries the source from that token on (R146). -/
def Blames (labelled : Bool) (ts : List Token) (f : Failure) : Prop :=
  ∃ earlier t later, ts = earlier ++ t :: later ∧ Offends labelled earlier t later f.error ∧ f.rest = some t.rest

theorem asDirection_error {t : Token} {form : OperandForm} {f : Failure} (h : asDirection t form = .error f) :
    form.hasKind .direction = false ∧ f = { error := .invalidParameter .direction, rest := some t.rest } := by
  cases form with
  | number n => cases h; exact ⟨rfl, rfl⟩
  | address a => cases h
  | label n => cases h

theorem asAddress_error {t : Token} {form : OperandForm} {f : Failure} (h : asAddress t form = .error f) :
    form.hasKind .address = false ∧ f = { error := .invalidParameter .address, rest := some t.rest } := by
  cases form with
  | number n => cases h; exact ⟨rfl, rfl⟩
  | address a => cases h
  | label n => cases h; exact ⟨rfl, rfl⟩

theorem asNumber_error {t : Token} {form : OperandForm} {f : Failure} (h : asNumber t form = .error f) :
    form.hasKind .number = false ∧ f = { error := .invalidParameter .number, rest := some t.rest } := by
  cases form with
  | number n => cases h
  | address a => cases h; exact ⟨rfl, rfl⟩
  | label n => cases h; exact ⟨rfl, rfl⟩

theorem checkSpellings_error_cases {ts : List Token} {f : Failure} (h : checkSpellings ts = .error f) :
    ∃ earlier t later, ts = earlier ++ t :: later ∧ classify t = .error f := by
  induction ts with
  | nil => cases h
  | cons t ts ih =>
    rw [checkSpellings_cons_eq_bind] at h
    cases hc : classify t with
    | error g => rw [hc] at h; cases h; exact ⟨[], t, ts, rfl, hc⟩
    | ok form =>
      rw [hc] at h
      obtain ⟨earlier, u, later, rfl, hu⟩ := ih h
      exact ⟨t :: earlier, u, later, rfl, hu⟩

/-- Surplus tokens fail by one's spelling, or at the first for being there (R144, R145). -/
theorem checkSurplus_error_cases {ts : List Token} {f : Failure} (h : checkSurplus ts = .error f) :
    (∃ earlier t later, ts = earlier ++ t :: later ∧ classify t = .error f) ∨
      ∃ t later, ts = t :: later ∧ f = { error := .syntaxError, rest := some t.rest } := by
  cases ts with
  | nil => cases h
  | cons t later =>
    rw [checkSurplus_cons_eq_bind] at h
    cases hs : checkSpellings (t :: later) with
    | error g => rw [hs] at h; cases h; exact .inl (checkSpellings_error_cases hs)
    | ok u => rw [hs] at h; cases h; exact .inr ⟨t, later, rfl, rfl⟩

section Command

variable {labelled : Bool} {field : List Token} {m : Token} {k : Mnemonic} {f : Failure}

/-- A misspelled token behind the mnemonic is to blame (R139, R140). -/
theorem blames_of_misspelled (hfield : field.length = labelled.toNat) (hk : lookupMnemonic m.text = some k)
    {ops later : List Token} {t : Token} (h : classify t = .error f) :
    Blames labelled (field ++ m :: (ops ++ t :: later)) f := by
  have hsome : (lookupMnemonic m.text).isSome = true := by rw [hk]; rfl
  refine ⟨field ++ m :: ops, t, later, by simp, ?_⟩
  rcases classify_error h with rfl | rfl
  · exact ⟨.spelling hfield hsome h (.inr rfl), rfl⟩
  · exact ⟨.spelling hfield hsome h (.inl rfl), rfl⟩

/-- A token after the operands a mnemonic takes is to blame, for its spelling or for being there (R144). -/
theorem blames_of_surplus (hfield : field.length = labelled.toNat) (hk : lookupMnemonic m.text = some k)
    {ops more : List Token} (hops : ops.length = k.operandKind.isSome.toNat) (h : checkSurplus more = .error f) :
    Blames labelled (field ++ m :: (ops ++ more)) f := by
  obtain ⟨earlier, t, later, rfl, ht⟩ | ⟨t, later, rfl, rfl⟩ := checkSurplus_error_cases h
  · rw [← List.append_assoc]
    exact blames_of_misspelled hfield hk ht
  · exact ⟨field ++ m :: ops, t, later, by simp, .surplus hfield hk hops, rfl⟩

/-- The operand of a mnemonic that takes one fails by its spelling or its kind, by being missing, or by what follows it
(R142–R145). -/
theorem blames_of_parseOperand (hfield : field.length = labelled.toNat) (hk : lookupMnemonic m.text = some k)
    {α : Type} {kind : Token → OperandForm → Except Failure α} {expected : ExpectedKind}
    (hexpected : k.operandKind = some expected)
    (hkind : ∀ {t form f}, kind t form = .error f →
      form.hasKind expected = false ∧ f = { error := .invalidParameter expected, rest := some t.rest })
    {ops : List Token} (h : parseOperand m kind ops = .error f) : Blames labelled (field ++ m :: ops) f := by
  have hsome : k.operandKind.isSome = true := by rw [hexpected]; rfl
  cases ops with
  | nil => cases h; exact ⟨field, m, [], rfl, .missing hfield hk hsome, rfl⟩
  | cons t more =>
    rw [parseOperand_cons_eq_bind] at h
    cases hform : classify t with
    | error g => rw [hform] at h; cases h; exact blames_of_misspelled (ops := []) hfield hk hform
    | ok form =>
      rw [hform, Except.bind] at h
      cases hv : kind t form with
      | error g =>
        rw [hv] at h
        cases h
        obtain ⟨hwrong, rfl⟩ := hkind hv
        exact ⟨field ++ [m], t, more, by simp, .kind hfield hk hexpected hform hwrong, rfl⟩
      | ok v =>
        rw [hv] at h
        exact blames_of_surplus (ops := [t]) hfield hk (by rw [hsome]; rfl) (map_error h)

theorem blames_of_parseMnemonic (hfield : field.length = labelled.toNat) (hk : lookupMnemonic m.text = some k)
    {ops : List Token} (h : parseMnemonic m ops k = .error f) : Blames labelled (field ++ m :: ops) f := by
  cases k with
  | addressed op => exact blames_of_parseOperand hfield hk rfl asDirection_error (map_error h)
  | org => exact blames_of_parseOperand hfield hk rfl asAddress_error (map_error h)
  | data => exact blames_of_parseOperand hfield hk rfl asNumber_error (map_error h)
  | reserve => exact blames_of_parseOperand hfield hk rfl asNumber_error (map_error h)
  | plain op => exact blames_of_surplus (ops := []) hfield hk rfl (map_error h)
  | endOfProgram => exact blames_of_surplus (ops := []) hfield hk rfl (map_error h)

theorem blames_of_parseCommand (hfield : field.length = labelled.toNat) {ts : List Token}
    (h : parseCommand ts = .error f) : Blames labelled (field ++ ts) f := by
  cases ts with
  | nil => cases h
  | cons m ops =>
    cases hk : lookupMnemonic m.text with
    | none =>
      rw [parseCommand_unknown hk] at h
      cases h
      exact ⟨field, m, ops, rfl, .mnemonic hfield hk, rfl⟩
    | some k =>
      rw [parseCommand_known hk] at h
      exact blames_of_parseMnemonic hfield hk (map_error h)

end Command

/-- A line's failure is that of its label field or of its command (R145). -/
theorem blames_of_parseTokens {labelled : Bool} {ts : List Token} {f : Failure}
    (h : parseTokens labelled ts = .error f) : Blames labelled ts f := by
  match labelled, ts with
  | true, t :: more =>
    rw [parseTokens_labelled_eq_bind] at h
    cases hl : parseLabel t with
    | error g =>
      rw [hl] at h
      cases h
      obtain ⟨hname, rfl⟩ := parseLabel_error_iff.1 hl
      exact ⟨[], t, more, rfl, .label rfl hname, rfl⟩
    | ok name =>
      rw [hl] at h
      exact blames_of_parseCommand (field := [t]) rfl (map_error h)
  | true, [] => cases h
  | false, ts => exact blames_of_parseCommand (field := []) rfl (map_error h)

end Sys2Proof.Asm

/-! PROOFS. Where lines and tokens begin in the source (spec/44_asm_parser.md R131, R133, R146). -/

namespace Sys2Proof.Asm

/-- The text ends in a character that is part of no token: whitespace, `;` or a newline (R133). -/
def EndsInBreak (before : Source) : Prop := ∃ d, before.getLast? = some d ∧ isTokenChar d = false

theorem endsInBreak_singleton {c : Char} (h : isTokenChar c = false) : EndsInBreak [c] := ⟨c, rfl, h⟩

theorem EndsInBreak.append_left {before : Source} (h : EndsInBreak before) (front : Source) :
    EndsInBreak (front ++ before) := by
  obtain ⟨d, hd, hbreak⟩ := h
  refine ⟨d, ?_, hbreak⟩
  rw [List.getLast?_append, hd, Option.some_or]

theorem EndsInBreak.cons {before : Source} (h : EndsInBreak before) (c : Char) : EndsInBreak (c :: before) :=
  h.append_left [c]

/-- A line begins at the source's start, if that is fresh, or behind a newline (R131). -/
theorem lineStarts_mem {fresh : Bool} {src line : Source} (h : line ∈ lineStarts fresh src) :
    ∃ before, src = before ++ line ∧ (before = [] ∧ fresh = true ∨ EndsInBreak before) := by
  induction src generalizing fresh with
  | nil => cases fresh <;> cases h
  | cons c cs ih =>
    rw [lineStarts] at h
    split_ifs at h with hnewline hfresh
    · subst hnewline
      obtain ⟨before, rfl, ⟨rfl, -⟩ | hbreak⟩ := ih h
      · exact ⟨['\n'], rfl, .inr (endsInBreak_singleton rfl)⟩
      · exact ⟨'\n' :: before, rfl, .inr (hbreak.cons _)⟩
    · rcases List.mem_cons.1 h with rfl | h
      · exact ⟨[], rfl, .inl ⟨rfl, hfresh⟩⟩
      · obtain ⟨before, rfl, ⟨-, hfalse⟩ | hbreak⟩ := ih h
        · cases hfalse
        · exact ⟨c :: before, rfl, .inr (hbreak.cons _)⟩
    · obtain ⟨before, rfl, ⟨-, hfalse⟩ | hbreak⟩ := ih h
      · cases hfalse
      · exact ⟨c :: before, rfl, .inr (hbreak.cons _)⟩

theorem exists_eq_some_of_mem_toList {pending : Option Token} {t : Token} (h : t ∈ pending.toList) :
    ∃ q, pending = some q ∧ t.rest = q.rest := ⟨t, Option.mem_toList.1 h, rfl⟩

/-- A token of the line is the one pending, or begins in the line: at a token character, at the line's start, if nothing
is pending, or behind a break (R133). -/
theorem lexLine_mem {pending : Option Token} {line : Source} {t : Token} (h : t ∈ lexLine pending line) :
    (∃ q, pending = some q ∧ t.rest = q.rest) ∨
      (∃ before, line = before ++ t.rest ∧ (before = [] ∧ pending = none ∨ EndsInBreak before)) ∧
        ∃ c cs, t.rest = c :: cs ∧ isTokenChar c = true := by
  induction line generalizing pending with
  | nil =>
    rw [lexLine_of_endsText endsText_nil] at h
    exact .inl (exists_eq_some_of_mem_toList h)
  | cons c cs ih =>
    by_cases hend : c = '\n' ∨ c = ';'
    · have hends : endsText (c :: cs) := fun x hx => by cases hx; exact hend
      rw [lexLine_of_endsText hends] at h
      exact .inl (exists_eq_some_of_mem_toList h)
    by_cases hspace : isSpace c = true
    · rw [lexLine_of_isSpace hspace] at h
      rcases List.mem_append.1 h with h | h
      · exact .inl (exists_eq_some_of_mem_toList h)
      obtain ⟨q, hq, -⟩ | ⟨⟨before, rfl, hbefore⟩, hstart⟩ := ih h
      · cases hq
      refine .inr ⟨⟨c :: before, rfl, .inr ?_⟩, hstart⟩
      rcases hbefore with ⟨rfl, -⟩ | hbreak
      · exact endsInBreak_singleton (by rw [isTokenChar, hspace]; rfl)
      · exact hbreak.cons c
    have htoken : isTokenChar c = true :=
      isTokenChar_iff.2 ⟨by simpa using hspace, fun h => hend (.inr h), fun h => hend (.inl h)⟩
    rw [lexLine_tokenChar htoken] at h
    cases pending with
    | none =>
      obtain ⟨q, hq, hrest⟩ | ⟨⟨before, rfl, ⟨-, hnone⟩ | hbreak⟩, hstart⟩ := ih h
      · cases hq
        exact .inr ⟨⟨[], by rw [hrest]; rfl, .inl ⟨rfl, rfl⟩⟩, c, cs, hrest, htoken⟩
      · cases hnone
      · exact .inr ⟨⟨c :: before, rfl, .inr (hbreak.cons c)⟩, hstart⟩
    | some p =>
      obtain ⟨q, hq, hrest⟩ | ⟨⟨before, rfl, ⟨-, hnone⟩ | hbreak⟩, hstart⟩ := ih h
      · cases hq
        exact .inl ⟨p, rfl, hrest⟩
      · cases hnone
      · exact .inr ⟨⟨c :: before, rfl, .inr (hbreak.cons c)⟩, hstart⟩

/-- A token of a line of the source begins in the source at a token character, with none right before it (R146). -/
theorem token_starts_in_source {src line : Source} {t : Token} (hline : line ∈ lineStarts true src)
    (ht : t ∈ lexLine none line) :
    ∃ before, src = before ++ t.rest ∧ (before = [] ∨ EndsInBreak before) ∧
      ∃ c cs, t.rest = c :: cs ∧ isTokenChar c = true := by
  obtain ⟨front, rfl, hfront⟩ := lineStarts_mem hline
  obtain ⟨q, hq, -⟩ | ⟨⟨before, rfl, hbefore⟩, hstart⟩ := lexLine_mem ht
  · cases hq
  refine ⟨front ++ before, (List.append_assoc ..).symm, ?_, hstart⟩
  rcases hbefore with ⟨rfl, -⟩ | hbreak
  · rw [List.append_nil]
    exact hfront.imp_left And.left
  · exact .inr (hbreak.append_left front)

/-- Settles O54: the first line that fails blames one of its tokens, and that token's place in the source is the
failure's. -/
theorem parseFailurePointsIntoSource : Obligations.ParseFailurePointsIntoSource := by
  intro src f h
  obtain ⟨linesBefore, line, linesAfter, hlines, hparsed, hfail⟩ := parseLines_error h
  obtain ⟨earlier, t, later, htokens, hoffends, hrest⟩ := blames_of_parseTokens hfail
  have hline : line ∈ lineStarts true src := by rw [hlines]; simp
  have ht : t ∈ lexLine none line := by rw [htokens]; simp
  obtain ⟨before, hsrc, hbefore, hstart⟩ := token_starts_in_source hline ht
  exact ⟨linesBefore, linesAfter, line, earlier, later, t, before, hlines, hparsed, hfail, htokens, hoffends, hrest,
    hsrc, hstart, hbefore⟩

end Sys2Proof.Asm
